-- ==== Sys2Proof/Word.lean ====
section
/-! DEFINITION. The words of the block: one 32-bit width for every register and every host
transaction, and the byte of its memories (spec/00_scope.md R8, R10). -/

namespace Sys2Proof

/-- The 32-bit word of every register and every host transaction (R8, R10). -/
abbrev Word := BitVec 32

/-- A byte; as an input symbol, one of the 256 byte values (R8, R10). -/
abbrev Byte := BitVec 8

end Sys2Proof
end

