-- ==== Sys2Proof/Config.lean ====
section
/-! DEFINITION. What is fixed for one instance of the block: the constants of R8, the two capacity
parameters of R7, and the values the spec leaves free (`any`), as opaque constants nothing can
evaluate (R12, spec/93_implementation_defined.md section 2). -/

namespace Sys2Proof.Config

/-- NIL, the node index that means "no node" (R8, D6). -/
def nil : BitVec 9 := 0x1FF

/-- ID_VALUE, the contents of the ID register (R8, R24, D27). -/
def idValue : Word := 0x48554631

/-- The largest capacity either byte memory may have (R7). -/
def maxCap : Nat := 0x10000000

/-- The two parameters of an instance (R7). -/
structure Params where
  /-- IN_CAP, the size of IN_MEM in bytes. -/
  inCap : Nat
  /-- OUT_CAP, the size of OUT_MEM in bytes. -/
  outCap : Nat
  deriving DecidableEq, Repr

/-- The default instance: IN_CAP = 65536, OUT_CAP = 524288 (R7, D4). -/
def Params.default : Params := { inCap := 65536, outCap := 524288 }

/-- FREE VALUE: byte `i` of IN_MEM that nothing has written since the reset that drew `stamp`
(R43, R50: every byte `any`; assumption 1). -/
opaque freeInByte : (stamp i : Nat) → Byte

/-- FREE VALUE: byte `i` of OUT_MEM that nothing has written since the reset or the scan error that
drew `stamp` (R44, R50, R235: every byte `any`; assumption 1). -/
opaque freeOutByte : (stamp i : Nat) → Byte

/-- FREE VALUE: the data of the host read that takes draw `n`, made while the block is BUSY, of a
register or table the command may be part-way through writing (R49 (c); assumption 2). -/
opaque freeReadData : (n : Nat) → Word

/-- FREE VALUE: what a host program's name holds before a read has named it; the notation of R110
does not say (assumption 8). -/
opaque freeHostName : (name : Nat) → Word

end Sys2Proof.Config
end

