-- ==== Sys2Proof/Syntax.lean ====
section
/-! DEFINITION. The commands of the block, one constructor per row of spec/opcode_table.json
(spec/30_encoding.md R100, R101). A command has no operand fields (R100, R103): its operands are
registers and memories. -/

namespace Sys2Proof

/-- The four commands of the opcode map (R101). -/
inductive Instr where
  /-- NOP, command word 0x00000000 (R204). -/
  | nop
  /-- ENCODE, command word 0x00000001 (R205). -/
  | encode
  /-- DECODE, command word 0x00000002 (R206). -/
  | decode
  /-- CLEAR, command word 0x00000003 (R207). -/
  | clear
  deriving DecidableEq, Repr

end Sys2Proof
end

