-- ==== Sys2Proof/WellFormed.lean ====
section
/-! DEFINITION. What a command and an instance must satisfy to be one of this block: every command is
well formed because it has no operand (R100), and an instance's parameters obey R7. -/

namespace Sys2Proof

/-- A command carries no operand field, so there is nothing in it that could be ill formed (R100). -/
def Instr.wf : Instr → Bool
  | .nop => true
  | .encode => true
  | .decode => true
  | .clear => true

/-- The constraints of R7: 4 ≤ IN_CAP ≤ 2^28, IN_CAP ≤ OUT_CAP ≤ 2^28, both multiples of 4. -/
def Config.Params.wf (p : Config.Params) : Bool :=
  decide (4 ≤ p.inCap) && decide (p.inCap ≤ Config.maxCap) && decide (p.inCap % 4 = 0) &&
  decide (p.inCap ≤ p.outCap) && decide (p.outCap ≤ Config.maxCap) && decide (p.outCap % 4 = 0)

end Sys2Proof
end

