-- ==== Sys2Proof/Decode.lean ====
section
/-! DEFINITION. The command word: the opcode map as a table, the decoder, total on every 32-bit value
and refusing by name, and the encoder (spec/30_encoding.md R100 to R102, R113). -/

namespace Sys2Proof

/-- One row of the opcode map: a word `w` stands for the command when `w &&& mask = pattern`. -/
structure OpRow where
  instr : Instr
  pattern : Word
  mask : Word
  deriving DecidableEq, Repr

/-- The opcode map of R101: the whole word is matched. -/
def opTable : List OpRow :=
  [ { instr := .nop,    pattern := 0x00000000, mask := 0xFFFFFFFF },
    { instr := .encode, pattern := 0x00000001, mask := 0xFFFFFFFF },
    { instr := .decode, pattern := 0x00000002, mask := 0xFFFFFFFF },
    { instr := .clear,  pattern := 0x00000003, mask := 0xFFFFFFFF } ]

/-- A word matches a row of the map. -/
def OpRow.hits (r : OpRow) (w : Word) : Bool := w &&& r.mask == r.pattern

/-- OPCODE, bits [7:0] of the command word (R100). -/
def opcodeField (w : Word) : BitVec 8 := w.extractLsb' 0 8

/-- MBZ, bits [31:8] of the command word, which must be zero (R100). -/
def mbzField (w : Word) : BitVec 24 := w.extractLsb' 8 24

/-- Why a word is no legal command word (R102). -/
inductive DecodeError where
  /-- OPCODE is in 0x04..0xFF, whatever MBZ holds. -/
  | reservedOpcode
  /-- OPCODE names a command, and MBZ is not zero. -/
  | mbzNotZero
  deriving DecidableEq, Repr

/-- The decoder: the table's row, or the reason the word is illegal (R101, R102). -/
def decode (w : Word) : Except DecodeError Instr :=
  match opTable.find? (fun r => r.hits w) with
  | some r => .ok r.instr
  | none => if opcodeField w ≤ 3 then .error .mbzNotZero else .error .reservedOpcode

/-- The encoder: the command word of a command (R101). -/
def encode : Instr → Word
  | .nop => 0x00000000
  | .encode => 0x00000001
  | .decode => 0x00000002
  | .clear => 0x00000003

/-- The host's view of the decoder: `w`'s low `nbits` bits as the table numbers them, every bit above
them zero. A command is one 32-bit word (R100), so a value that does not fit one is no command. -/
def decodeTableWord (nbits w : Nat) : Option Instr :=
  let v := w % 2 ^ nbits
  if v < 2 ^ 32 then (decode (BitVec.ofNat 32 v)).toOption else none

end Sys2Proof
end

