-- ==== Sys2Proof/Machine/State.lean ====
section
/-! DEFINITION. The state of the Huffman core, as plain data: everything spec/10_state.md gives the
block, the HOST agent beside it (spec/00_scope.md R5), and the reset state (R50). -/

namespace Sys2Proof.Machine

/-- PHASE, the sequencer: idle, or a command in flight with its word (R22). -/
inductive Phase where
  | idle
  | busy (c : Word)
  deriving DecidableEq, Repr

/-- One entry of NODE_MEM (R41). -/
structure Node where
  valid : Bool
  leaf : Bool
  sym : Byte
  freq : Word
  left : BitVec 9
  right : BitVec 9
  deriving DecidableEq, Repr

/-- The all-zero entry: an unused one, and what index 511 reads as (R41, R106). -/
def Node.blank : Node :=
  { valid := false, leaf := false, sym := 0, freq := 0, left := 0, right := 0 }

/-- One entry of CODE_MEM (R42). BITS[j] is bit `255 - j` of `bits`, so that BITS[0], the first bit
of the code, is its most significant bit and word 1 + m of the entry is bits 32(7 - m) up (R104). -/
structure CodeEntry where
  len : Byte
  bits : BitVec 256
  deriving DecidableEq, Repr

/-- The entry of a symbol with no code (R42). -/
def CodeEntry.blank : CodeEntry := { len := 0, bits := 0 }

/-- A byte memory (IN_MEM, R43; OUT_MEM, R44): the bytes written since its contents last became
`any`, by index, and the number of the draw that made them so. An index that is not listed has no
value the model knows: it reads as the free byte of that draw (assumption 1). -/
structure ByteMem where
  stamp : Nat
  cells : List Host.Cell
  deriving DecidableEq, Repr

/-- A host transaction, the triple (kind, addr, data) of R112. -/
inductive Transaction where
  | read (addr : Word)
  | write (addr data : Word)
  deriving DecidableEq, Repr

/-- The two responses of a transaction (R72). -/
inductive RespCode where
  | okay
  | error
  deriving DecidableEq, Repr

/-- What the block answers a transaction with; `data` is the read data, 0 for a refused read (R72); for
a write it is 0 by the model's choice (assumption 11). -/
structure Response where
  code : RespCode
  data : Word
  deriving DecidableEq, Repr

/-- The value operand of a host statement: a number, or the data an earlier read named (R110). -/
inductive HostValue where
  | lit (v : Word)
  | named (n : Nat)
  deriving DecidableEq, Repr

/-- The condition of a host branch, on named read data (R110): one bit of it, or all of it. -/
inductive HostCond where
  | bitIs (n : Nat) (i : Nat) (v : Bool)
  | wordIs (n : Nat) (v : Word)
  deriving DecidableEq, Repr

/-- The forms of the host program notation (R110); names and labels are numbered. -/
inductive HostStmt where
  /-- `WR addr, value` -/
  | wr (addr : Word) (v : HostValue)
  /-- `RD addr` -/
  | rd (addr : Word)
  /-- `RD addr -> name` -/
  | rdTo (addr : Word) (n : Nat)
  /-- `RD addr == value`: a read; the value is the text's statement, not an effect. -/
  | rdExpect (addr : Word) (v : Word)
  /-- `label:` -/
  | label (l : Nat)
  /-- `IF cond GOTO label` -/
  | ifGoto (c : HostCond) (l : Nat)
  deriving DecidableEq, Repr

/-- The HOST agent (R5, R110): its program, the position in it, the data its reads named, and the
response of its last transaction. None of it is block state (R21). -/
structure HostAgent where
  prog : List HostStmt
  pos : Nat
  names : List (Nat × Word)
  resp : Option Response
  deriving DecidableEq, Repr

/-- Who moves in a step of the interleaving (R82), or a change of the reset input (R48). -/
inductive Turn where
  | host
  | block
  | rst (level : Bool)
  deriving DecidableEq, Repr

/-- The reasons a step could stop with a fault. There is none: no condition hangs the block or leaves
it faulted, and every command completes (spec/93_implementation_defined.md, R230, R263), so the type
has no constructor and nothing raises one. -/
inductive Fault where
  deriving DecidableEq, Repr

/-- The reasons the model has no meaning for a step. -/
inductive Refusal where
  /-- Raised by no arm of `exec`: every command has its meaning (safe). -/
  | notModelled (mnemonic : String)
  /-- Raised by `step` when the parameters break a constraint of R7: "A configuration that breaks a
  constraint is not an instance of this block; a model refuses it" (safe). -/
  | badParams
  deriving DecidableEq, Repr

/-- The whole machine. STATUS.BUSY is `phase`, STATUS and `irq` are views (Machine/Flags.lean), CMD
holds no state (R25), and the working registers of R46 are local to a command's meaning. -/
structure State where
  /-- IN_CAP and OUT_CAP, constant registers (R37, R38). -/
  params : Config.Params
  /-- The level of the reset input `rst` (R48). -/
  rst : Bool
  /-- PHASE (R22), and with it STATUS.BUSY (R26). -/
  phase : Phase
  /-- STATUS.DONE (R26). -/
  done : Bool
  /-- STATUS.ERR (R26). -/
  err : Bool
  /-- STATUS.ERR_CODE (R26). -/
  errCode : BitVec 4
  /-- CTRL.IRQ_EN (R27). -/
  irqEn : Bool
  /-- IN_LEN (R28). -/
  inLen : Word
  /-- BITLEN (R29). -/
  bitLen : Word
  /-- OUT_LEN (R30). -/
  outLen : Word
  /-- LAST_BITS[3:0] (R31). -/
  lastBits : BitVec 4
  /-- NSYM[8:0] (R32). -/
  nsym : BitVec 9
  /-- MAX_CODE_LEN[7:0] (R33). -/
  maxCodeLen : BitVec 8
  /-- NODE_COUNT[9:0] (R34). -/
  nodeCount : BitVec 10
  /-- ROOT[8:0] (R35). -/
  root : BitVec 9
  /-- ERR_INFO (R36). -/
  errInfo : Word
  /-- FREQ_MEM (R40). -/
  freq : Vector Word 256
  /-- NODE_MEM (R41). -/
  node : Vector Node 511
  /-- CODE_MEM (R42). -/
  code : Vector CodeEntry 256
  /-- IN_MEM (R43). -/
  inMem : ByteMem
  /-- OUT_MEM (R44). -/
  outMem : ByteMem
  /-- PQ, the hidden priority queue: node indices, no repeats (R45, R140). -/
  queue : List Nat
  /-- The model's own counter of draws of a free value (assumptions 1 and 2). -/
  draws : Nat
  /-- The HOST agent (R5). -/
  host : HostAgent
  /-- The model's own schedule: whose turn each coming step is (R82, R263; assumption 3). -/
  turns : List Turn
  deriving DecidableEq, Repr

/-- A host with no program, that has made no transaction. -/
def HostAgent.idle : HostAgent := { prog := [], pos := 0, names := [], resp := none }

/-- The machine right after reset (R50), with the default parameters (R7), `rst` released, and no
host program. -/
def State.reset : State where
  params := Config.Params.default
  rst := false
  phase := .idle
  done := false
  err := false
  errCode := 0
  irqEn := false
  inLen := 0
  bitLen := 0
  outLen := 0
  lastBits := 0
  nsym := 0
  maxCodeLen := 0
  nodeCount := 0
  root := Config.nil
  errInfo := 0
  freq := Vector.replicate 256 0
  node := Vector.replicate 511 Node.blank
  code := Vector.replicate 256 CodeEntry.blank
  inMem := { stamp := 0, cells := [] }
  outMem := { stamp := 0, cells := [] }
  queue := []
  draws := 1
  host := HostAgent.idle
  turns := []

end Sys2Proof.Machine
end

