-- ==== Sys2Proof/Machine/Flags.lean ====
section
/-! DEFINITION. The block's flags: the STATUS and CTRL words, the interrupt output, what issue and
completion do to the flags (R26, R27, R47, R51, R202, R203), the error codes (R231), and the counts
LAST_BITS is computed from (R31, R173). -/

namespace Sys2Proof.Machine

/-- STATUS.BUSY (R26). -/
def State.busy (s : State) : Bool :=
  match s.phase with
  | .idle => false
  | .busy _ => true

/-- The STATUS word: BUSY [0], DONE [1], ERR [2], bit 3 zero, ERR_CODE [7:4], the rest zero (R26). -/
def statusWord (s : State) : Word :=
  (s.errCode ++ 0#1 ++ BitVec.ofBool s.err ++ BitVec.ofBool s.done ++ BitVec.ofBool s.busy).setWidth 32

/-- The CTRL word: IRQ_EN in bit 0, the rest zero (R27). -/
def ctrlWord (s : State) : Word := (BitVec.ofBool s.irqEn).setWidth 32

/-- The interrupt output: irq = STATUS.DONE ∧ CTRL.IRQ_EN (R47, R239). -/
def State.irq (s : State) : Bool := s.done && s.irqEn

/-- The error codes a command can end with (R231). -/
inductive ErrCode where
  | decNoMatch
  | decTruncated
  | tableInvalid
  | lenRange
  | bitLenRange
  | outOverflow
  | illegalCmd
  deriving DecidableEq, Repr

/-- The number STATUS.ERR_CODE holds for an error (R231). -/
def ErrCode.num : ErrCode → BitVec 4
  | .decNoMatch => 1
  | .decTruncated => 2
  | .tableInvalid => 3
  | .lenRange => 4
  | .bitLenRange => 5
  | .outOverflow => 6
  | .illegalCmd => 7

/-- The flags at issue: DONE, ERR and ERR_CODE cleared; BUSY follows PHASE (R202). -/
def State.flagsAtIssue (s : State) : State :=
  { s with done := false, err := false, errCode := 0 }

/-- The flags at completion: DONE set, ERR and ERR_CODE from the code; BUSY follows PHASE (R203). -/
def State.flagsAtCompletion (code : BitVec 4) (s : State) : State :=
  { s with done := true, err := code != 0, errCode := code }

/-- A host write of STATUS: bit 1 clears DONE, nothing else changes (R26). -/
def State.writeStatus (v : Word) (s : State) : State :=
  { s with done := s.done && !v.getLsbD 1 }

/-- The significant bits of the last of `ceil(bp / 8)` packed bytes (R31, R173). -/
def lastBitsOf (bp : Nat) : Nat :=
  if bp = 0 then 0 else if bp % 8 ≠ 0 then bp % 8 else 8

end Sys2Proof.Machine
end

