-- ==== Sys2Proof/Machine/Ops.lean ====
section
/-! DEFINITION. The named operations over the tables and memories, and the shared operations of every
command: issue, completion with or without an error, and reset (R202, R203, R233, R260). -/

namespace Sys2Proof.Machine

/-! ### Keyed lists: keys strictly rising, one entry a key -/

/-- The value listed under a key. -/
def lookupKey {α : Type} : List (Nat × α) → Nat → Option α
  | [], _ => none
  | (k, v) :: r, a => if a = k then some v else lookupKey r a

/-- Lists a value under a key, in its place by key; what was listed there is replaced. -/
def insertKey {α : Type} : List (Nat × α) → Nat → α → List (Nat × α)
  | [], a, x => [(a, x)]
  | (k, v) :: r, a, x =>
    if a < k then (a, x) :: (k, v) :: r
    else if a = k then (a, x) :: r
    else (k, v) :: insertKey r a x

/-- The canonical form: keys strictly rising. -/
abbrev KeysRise {α : Type} (l : List (Nat × α)) : Prop := l.Pairwise (fun x y => x.1 < y.1)

/-! ### Byte memories -/

/-- The memory's canonical form (assumption 1). -/
abbrev ByteMem.wf (m : ByteMem) : Prop := KeysRise m.cells

/-- The byte written at an index, if one has been written since the contents last became `any`. -/
def ByteMem.get? (m : ByteMem) (i : Nat) : Option Byte := lookupKey m.cells i

/-- Writes one byte. -/
def ByteMem.set (m : ByteMem) (i : Nat) (b : Byte) : ByteMem :=
  { m with cells := insertKey m.cells i b }

/-- A memory every byte of which is `any`, drawn by draw `stamp` (R50, R235). -/
def ByteMem.any (stamp : Nat) : ByteMem := { stamp := stamp, cells := [] }

/-- `IN[i]` (R12, R43). -/
def inByte (m : ByteMem) (i : Nat) : Byte := (m.get? i).getD (Config.freeInByte m.stamp i)

/-- `OUT[i]` (R12, R44). -/
def outByte (m : ByteMem) (i : Nat) : Byte := (m.get? i).getD (Config.freeOutByte m.stamp i)

/-- The word of four bytes, byte j in bits [8j+7:8j] (R76). -/
def wordOfBytes (b0 b1 b2 b3 : Byte) : Word := b3 ++ b2 ++ b1 ++ b0

/-- Byte j of a word, bits [8j+7:8j] (R76). -/
def byteOfWord (v : Word) (j : Nat) : Byte := v.extractLsb' (8 * j) 8

/-- Word w of IN_MEM (R76, R78). -/
def inWord (m : ByteMem) (w : Nat) : Word :=
  wordOfBytes (inByte m (4 * w)) (inByte m (4 * w + 1)) (inByte m (4 * w + 2)) (inByte m (4 * w + 3))

/-- Word w of OUT_MEM (R76, R79). -/
def outWord (m : ByteMem) (w : Nat) : Word :=
  wordOfBytes (outByte m (4 * w)) (outByte m (4 * w + 1)) (outByte m (4 * w + 2)) (outByte m (4 * w + 3))

/-- Stores word w, four bytes (R76, R78). -/
def ByteMem.setWord (m : ByteMem) (w : Nat) (v : Word) : ByteMem :=
  (((m.set (4 * w) (byteOfWord v 0)).set (4 * w + 1) (byteOfWord v 1)).set
    (4 * w + 2) (byteOfWord v 2)).set (4 * w + 3) (byteOfWord v 3)

/-- A byte with bit `off` set to `b` (R171). -/
def putBitInByte (x : Byte) (off : Nat) (b : Bool) : Byte :=
  if b then x ||| (1#8 <<< off) else x &&& ~~~(1#8 <<< off)

/-! ### Tables -/

/-- FREQ[s] (R40). -/
def freqAt (f : Vector Word 256) (s : Nat) : Word := f[s]?.getD 0

/-- NODE[i]; index 511 is NIL, holds no entry and reads all zeros (R41, R71). -/
def nodeAt (n : Vector Node 511) (i : Nat) : Node := n[i]?.getD Node.blank

/-- CODE[s] (R42). -/
def codeAt (t : Vector CodeEntry 256) (s : Nat) : CodeEntry := t[s]?.getD CodeEntry.blank

/-! ### Issue, completion, errors, reset -/

/-- Command issue: the effect of an accepted CMD write of `v` (R202). -/
def State.issue (v : Word) (s : State) : State :=
  { s.flagsAtIssue with phase := .busy v }

/-- Command completion with `(code, info)`: STATUS, ERR_INFO and PHASE, nothing else (R203). -/
def State.complete (code : BitVec 4) (info : Word) (s : State) : State :=
  { s.flagsAtCompletion code with errInfo := info, phase := .idle }

/-- Completion of a command that raised nothing: code 0, ERR_INFO 0 (R203, R237). -/
def State.succeed (s : State) : State := s.complete 0 0

/-- `raise E(info)`, the block's one form of exception: the command completes with E's code and
information word; control goes nowhere and no state is saved (R230, R233). -/
def State.raise (e : ErrCode) (info : Word) (s : State) : State := s.complete e.num info

/-- Reset: every piece of block state at its value of R50, a command in flight abandoned (R48, R260,
R261). The parameters are the instance's, and the host and the schedule are not block state. -/
def State.applyReset (s : State) : State :=
  { State.reset with
    params := s.params
    rst := s.rst
    inMem := ByteMem.any s.draws
    outMem := ByteMem.any s.draws
    draws := s.draws + 1
    host := s.host
    turns := s.turns }

end Sys2Proof.Machine
end

