-- ==== Sys2Proof/Machine/Operands.lean ====
section
/-! DEFINITION. Where commands take their operands from (R103): the input bytes, the stream bits, and
the code of a CODE_MEM entry; and the host word forms of the tables (R104 to R107). -/

namespace Sys2Proof.Machine

/-! ### Bit strings (R11) -/

/-- A bit string, first bit first. -/
abbrev BitString := List Bool

/-- "p is a prefix of q" (R11): |p| ≤ |q| and q[0..|p|) = p. -/
def isPrefix (p q : BitString) : Bool := decide (p.length ≤ q.length) && q.take p.length == p

/-- The BITS field that holds a bit string left-aligned, zero at and beyond its length (R104, R165). -/
def bitsOf : BitString → BitVec 256
  | [] => 0
  | b :: p => (if b then 1#256 <<< 255 else 0#256) ||| (bitsOf p >>> 1)

/-- The entry that stores a code (R165). -/
def CodeEntry.store (p : BitString) : CodeEntry :=
  { len := BitVec.ofNat 8 p.length, bits := bitsOf p }

/-- BITS[j] of an entry (R104). -/
def CodeEntry.bit (e : CodeEntry) (j : Nat) : Bool := e.bits.getMsbD j

/-- The code of an entry, BITS[0..LEN) (R105). -/
def CodeEntry.code (e : CodeEntry) : BitString := (List.range e.len.toNat).map e.bit

/-! ### Operands in IN_MEM -/

/-- IN[0..IN_LEN), what ENCODE compresses (R103, R205). -/
def inputBytes (s : State) : List Byte := (List.range s.inLen.toNat).map (inByte s.inMem)

/-- DC_BIT: stream bit `pos`, most significant bit of each byte first (R77, R183). -/
def streamBit (m : ByteMem) (pos : Nat) : Bool := (inByte m (pos / 8)).getLsbD (7 - pos % 8)

/-! ### Host words of the tables -/

/-- Word k of a NODE_MEM entry (R106). -/
def nodeWord (n : Node) : Nat → Word
  | 0 => n.freq
  | 1 => BitVec.ofBool n.valid ++ BitVec.ofBool n.leaf ++ 0#22 ++ n.sym
  | 2 => n.left.setWidth 32
  | _ => n.right.setWidth 32

/-- Word k = 0..8 of a CODE_MEM entry (R104). -/
def codeWord (e : CodeEntry) : Nat → Word
  | 0 => e.len.setWidth 32
  | m + 1 => e.bits.extractLsb' (32 * (7 - m)) 32

/-- The entry after a host write of its word k = 0..8 (R104, R201). -/
def CodeEntry.setWord (e : CodeEntry) (k : Nat) (v : Word) : CodeEntry :=
  match k with
  | 0 => { e with len := v.setWidth 8 }
  | m + 1 =>
    { e with bits := (e.bits &&& ~~~(0xFFFFFFFF#256 <<< (32 * (7 - m)))) |||
                     (v.setWidth 256 <<< (32 * (7 - m))) }

end Sys2Proof.Machine
end

