-- ==== Sys2Proof/Machine/BitPacker.lean ====
section
/-! DEFINITION. The bit packer, last stage of ENCODE: the codes of the input bytes, one after another,
most significant bit first (spec/44_bit_packer.md). -/

namespace Sys2Proof.Machine

/-- PutBit: stream bit `bp` into OUT_MEM; a new byte starts all zero (R171). -/
def putBit (m : ByteMem) (bp : Nat) (b : Bool) : ByteMem :=
  let m' := if bp % 8 = 0 then m.set (bp / 8) 0 else m
  m'.set (bp / 8) (putBitInByte (outByte m' (bp / 8)) (7 - bp % 8) b)

/-- The packer's working state: OUT_MEM and the bit position (R46, R170). -/
structure Packer where
  mem : ByteMem
  bp : Nat
  deriving DecidableEq, Repr

/-- Emits the bits of one code (R170). -/
def packCode (p : Packer) (bits : BitString) : Packer :=
  bits.foldl (fun p b => { mem := putBit p.mem p.bp b, bp := p.bp + 1 }) p

/-- BP_PACK: emits the code of each input byte, in input order (R170). -/
def packInput (c : Vector CodeEntry 256) (input : List Byte) (m : ByteMem) : Packer :=
  input.foldl (fun p s => packCode p (codeAt c s.toNat).code) { mem := m, bp := 0 }

end Sys2Proof.Machine
end

