-- ==== Sys2Proof/Machine/PriorityQueue.lean ====
section
/-! DEFINITION. The priority queue inside ENCODE: a set of node indices, extracted by the key
(FREQ, index), which is FIFO among equal frequencies (spec/41_priority_queue.md). -/

namespace Sys2Proof.Machine

/-- key(i) < key(j): smaller FREQ first, then smaller index (R140). -/
def keyLt (node : Vector Node 511) (i j : Nat) : Bool :=
  decide ((nodeAt node i).freq.toNat < (nodeAt node j).freq.toNat) ||
  (decide ((nodeAt node i).freq.toNat = (nodeAt node j).freq.toNat) && decide (i < j))

/-- PQ_INSERT(i): Q ∪ (i) (R141). -/
def pqInsert (i : Nat) (q : List Nat) : List Nat := if i ∈ q then q else q ++ [i]

/-- The member with the smallest key, if there is one (R142). -/
def pqMin (node : Vector Node 511) : List Nat → Option Nat
  | [] => none
  | i :: q =>
    match pqMin node q with
    | none => some i
    | some m => if keyLt node m i then some m else some i

/-- PQ_EXTRACT_MIN(): the member with the smallest key, and the queue without it (R142); `none` on
the empty queue, which its callers never give it. -/
def pqExtractMin (node : Vector Node 511) (q : List Nat) : Option (Nat × List Nat) :=
  (pqMin node q).map fun m => (m, q.erase m)

/-- PQ_SIZE() (R143). -/
def pqSize (q : List Nat) : Nat := q.length

end Sys2Proof.Machine
end

