-- ==== Sys2Proof/Machine/TreeBuilder.lean ====
section
/-! DEFINITION. The tree builder: leaves in ascending symbol order, then merges of the two smallest
until one node remains (spec/42_tree_builder.md). -/

namespace Sys2Proof.Machine

/-- What the tree builder works on: NODE_MEM, the queue, and the next free node index (R46). -/
structure Arena where
  node : Vector Node 511
  queue : List Nat
  next : Nat
  deriving DecidableEq, Repr

/-- A leaf for symbol `s` with its count (R41, R150). -/
def Node.mkLeaf (s : Byte) (f : Word) : Node :=
  { valid := true, leaf := true, sym := s, freq := f, left := Config.nil, right := Config.nil }

/-- An internal node over children `a`, extracted first, and `b` (R41, R151). -/
def Node.mkInternal (f : Word) (a b : Nat) : Node :=
  { valid := true, leaf := false, sym := 0, freq := f,
    left := BitVec.ofNat 9 a, right := BitVec.ofNat 9 b }

/-- Stores a node at the next free index and queues it (R150, R151). -/
def Arena.add (a : Arena) (n : Node) : Arena :=
  { node := a.node.setIfInBounds a.next n
    queue := pqInsert a.next a.queue
    next := a.next + 1 }

/-- The leaves of symbols `s`, `s + 1`, …, whose counts are listed (R150). -/
def addLeaves : List Word → Nat → Arena → Arena
  | [], _, a => a
  | f :: fs, s, a =>
    addLeaves fs (s + 1) (if f = 0 then a else a.add (Node.mkLeaf (BitVec.ofNat 8 s) f))

/-- TB_LEAF_INIT: NODE_MEM cleared, then one leaf per symbol present (R150). -/
def leafInit (f : Vector Word 256) (q : List Nat) : Arena :=
  addLeaves f.toList 0 { node := Vector.replicate 511 Node.blank, queue := q, next := 0 }

/-- One merge: A and B extracted, their parent stored and queued (R151). Without two nodes to
extract nothing happens, and the loop does not ask for it. -/
def mergeOnce (a : Arena) : Arena :=
  match pqExtractMin a.node a.queue with
  | none => a
  | some (x, q) =>
    match pqExtractMin a.node q with
    | none => a
    | some (y, q') =>
      Arena.add { a with queue := q' }
        (Node.mkInternal ((nodeAt a.node x).freq + (nodeAt a.node y).freq) x y)

/-- TB_MERGE: merges while more than one node is queued (R151). Each merge takes one node from the
queue, so as many rounds as the queue has nodes are enough. -/
def mergeLoop : Nat → Arena → Arena
  | 0, a => a
  | r + 1, a => if 1 < pqSize a.queue then mergeLoop r (mergeOnce a) else a

/-- What the tree builder leaves: NODE_MEM, the queue, ROOT and NODE_COUNT. -/
structure Tree where
  node : Vector Node 511
  queue : List Nat
  root : BitVec 9
  count : BitVec 10
  deriving DecidableEq, Repr

/-- TB_ROOT: the last node is the root (R152). -/
def takeRoot (a : Arena) : Tree :=
  match pqExtractMin a.node a.queue with
  | some (r, q) =>
    { node := a.node, queue := q, root := BitVec.ofNat 9 r, count := BitVec.ofNat 10 a.next }
  | none => { node := a.node, queue := a.queue, root := Config.nil, count := 0 }

/-- The tree builder: R150, then R155 when no symbol is present, else R151 and R152. -/
def buildTree (f : Vector Word 256) (q : List Nat) : Tree :=
  let a := leafInit f q
  if a.next = 0 then { node := a.node, queue := a.queue, root := Config.nil, count := 0 }
  else takeRoot (mergeLoop (pqSize a.queue) a)

end Sys2Proof.Machine
end

