-- ==== Sys2Proof/Machine/CodeGenerator.lean ====
section
/-! DEFINITION. The code table generator: each leaf's code is its root-to-leaf path, and a one-leaf tree
gives the code "0" (spec/43_code_table_generator.md). -/

namespace Sys2Proof.Machine

/-- The code table with every entry empty (R160). -/
def emptyCodes : Vector CodeEntry 256 := Vector.replicate 256 CodeEntry.blank

/-- Stores a symbol's code (R165). -/
def storeCode (c : Vector CodeEntry 256) (s : Byte) (p : BitString) : Vector CodeEntry 256 :=
  c.setIfInBounds s.toNat (CodeEntry.store p)

/-- CG_WALK: walk(i, p), left before right (R161). The first argument bounds the depth; a tree has
fewer nodes on a path than NODE_MEM has entries. -/
def walk (node : Vector Node 511) :
    Nat → Nat → BitString → Vector CodeEntry 256 → Vector CodeEntry 256
  | 0, _, _, c => c
  | d + 1, i, p, c =>
    if (nodeAt node i).leaf then storeCode c (nodeAt node i).sym p
    else
      walk node d (nodeAt node i).right.toNat (p ++ [true])
        (walk node d (nodeAt node i).left.toNat (p ++ [false]) c)

/-- The code table of a tree: empty for no tree (R155), "0" for a single leaf (R162), else the walk
from the root (R161); always from an empty table (R160). -/
def generateCodes (t : Tree) : Vector CodeEntry 256 :=
  if t.count = 0 then emptyCodes
  else if (nodeAt t.node t.root.toNat).leaf then
    storeCode emptyCodes (nodeAt t.node t.root.toNat).sym [false]
  else walk t.node 511 t.root.toNat [] emptyCodes

/-- CG_MAXLEN: the longest code length of a table, 0 when it is empty (R163, R181). -/
def maxLen (c : Vector CodeEntry 256) : Nat :=
  c.toList.foldl (fun m e => max m e.len.toNat) 0

end Sys2Proof.Machine
end

