-- ==== Sys2Proof/Machine/Decoder.lean ====
section
/-! DEFINITION. The decoder: the table read from CODE_MEM, its check, the lookup and the scan of the
stream up to BITLEN (spec/45_decoder.md). -/

namespace Sys2Proof.Machine

/-- A code table read from CODE_MEM: the present symbols in ascending order, each with its code. -/
abbrev Table := List (Byte × BitString)

/-- DC_TABLE: the entries with LEN ≠ 0 (R181). -/
def readTable (c : Vector CodeEntry 256) : Table :=
  (c.toList.zipIdx.filter fun x => x.1.len ≠ 0).map fun x => (BitVec.ofNat 8 x.2, x.1.code)

/-- DC_VALIDATE: the first pair (s, t), in lexicographic order, of two present symbols where code(s)
is a prefix of code(t) (R182). -/
def firstClash (t : Table) : Option (Byte × Byte) :=
  t.findSome? fun x => (t.find? fun y => x.1 != y.1 && isPrefix x.2 y.2).map fun y => (x.1, y.1)

/-- The ERR_INFO word of a clash: (t << 8) | s (R182, R237). -/
def clashInfo (s t : Byte) : Word := (t ++ s).setWidth 32

/-- DC_LOOKUP: the symbol whose code a candidate is (R184). -/
def lookupCode (t : Table) (c : BitString) : Option Byte :=
  (t.find? fun x => x.2 == c).map (·.1)

/-- How the scan ends: success with n symbols, or an error at a stream position (R185). -/
inductive ScanEnd where
  | done (n : Nat) (mem : ByteMem)
  | failed (e : ErrCode) (pos : Nat)
  deriving DecidableEq, Repr

/-- What the scan reads and never changes: OUT_CAP, MAX_CODE_LEN, the table, IN_MEM. -/
structure ScanInput where
  outCap : Nat
  maxLen : Nat
  table : Table
  mem : ByteMem
  deriving DecidableEq, Repr

/-- DC_SCAN (R185, R186, R189), one grown bit a round. `rest` is BITLEN − (pos + |cand|), the stream
bits not yet read; `cand` is the candidate, empty between symbols; `n` symbols are in `out`. -/
def scan (x : ScanInput) : (rest pos : Nat) → (cand : BitString) → (n : Nat) → (out : ByteMem) → ScanEnd
  | 0, _, _, n, out => .done n out
  | rest + 1, pos, cand, n, out =>
    let c := cand ++ [streamBit x.mem (pos + cand.length)]
    match lookupCode x.table c with
    | some s =>
      if n = x.outCap then .failed .outOverflow pos
      else scan x rest (pos + c.length) [] (n + 1) (out.set n s)
    | none =>
      if x.maxLen ≤ c.length then .failed .decNoMatch pos
      else if rest = 0 then .failed .decTruncated pos
      else scan x rest pos c n out

/-- The scan of a DECODE from its start (R185). -/
def scanInput (s : State) : ScanInput :=
  { outCap := s.params.outCap, maxLen := maxLen s.code, table := readTable s.code, mem := s.inMem }

end Sys2Proof.Machine
end

