-- ==== Sys2Proof/Machine/FrequencyCounter.lean ====
section
/-! DEFINITION. The frequency counter, first stage of ENCODE (spec/40_frequency_counter.md). -/

namespace Sys2Proof.Machine

/-- One occurrence of a byte value more. -/
def countByte (f : Vector Word 256) (b : Byte) : Vector Word 256 :=
  f.set b.toNat (f[b.toNat]'b.isLt + 1) b.isLt

/-- FC_COUNT: the frequency table of a byte sequence, counted from zero (R130). -/
def countFreq (input : List Byte) : Vector Word 256 :=
  input.foldl countByte (Vector.replicate 256 0)

/-- FC_NSYM: the number of distinct symbols (R131). -/
def distinctCount (f : Vector Word 256) : Nat :=
  (f.toList.filter fun w => w ≠ 0).length

end Sys2Proof.Machine
end

