-- ==== Sys2Proof/Machine/Commands.lean ====
section
/-! DEFINITION. The meanings of the commands: each is the whole completion step of its command, `run`
and the writes of completion (spec/46_commands.md R203 to R208). -/

namespace Sys2Proof.Machine

/-- The outcomes of a command's completion step. -/
abbrev Result := Host.Outcome State Fault Refusal

/-- NOP: success, and nothing else (R204). -/
def execNop (s : State) : Result := .next s.succeed

/-- ENCODE past its precheck: the five components in data-flow order (R205). -/
def encodeRun (s : State) : State :=
  let freq := countFreq (inputBytes s)
  let tree := buildTree freq s.queue
  let codes := generateCodes tree
  let packed := packInput codes (inputBytes s) s.outMem
  { s with
    freq := freq
    nsym := BitVec.ofNat 9 (distinctCount freq)
    node := tree.node
    queue := tree.queue
    root := tree.root
    nodeCount := tree.count
    code := codes
    maxCodeLen := BitVec.ofNat 8 (maxLen codes)
    outMem := packed.mem
    bitLen := BitVec.ofNat 32 packed.bp
    outLen := BitVec.ofNat 32 ((packed.bp + 7) / 8)
    lastBits := BitVec.ofNat 4 (lastBitsOf packed.bp) }

/-- ENCODE (R205): the precheck, then the components. -/
def execEncode (s : State) : Result :=
  if s.params.inCap < s.inLen.toNat then .next (s.raise .lenRange 0)
  else .next (encodeRun s).succeed

/-- NSYM and MAX_CODE_LEN, once DECODE's prechecks have passed (R181). -/
def decodeTableRegs (s : State) : State :=
  { s with
    nsym := BitVec.ofNat 9 (readTable s.code).length
    maxCodeLen := BitVec.ofNat 8 (maxLen s.code) }

/-- What a DECODE whose scan succeeded leaves (R187). -/
def decodeResult (n : Nat) (out : ByteMem) (s : State) : State :=
  { s with
    outMem := out
    outLen := BitVec.ofNat 32 n
    lastBits := if 0 < n then 8 else 0 }

/-- What a DECODE whose scan failed leaves: no output reported, every OUT_MEM byte `any` (R235). -/
def decodeFailure (s : State) : State :=
  { s with
    outMem := ByteMem.any s.draws
    draws := s.draws + 1
    outLen := 0
    lastBits := 0 }

/-- DECODE (R206): the prechecks of R180 and R182, then the scan. -/
def execDecode (s : State) : Result :=
  if s.params.inCap < s.inLen.toNat then .next (s.raise .lenRange 0)
  else if 8 * s.inLen.toNat < s.bitLen.toNat then .next (s.raise .bitLenRange 0)
  else
    match firstClash (readTable s.code) with
    | some (a, b) => .next (s.raise .tableInvalid (clashInfo a b))
    | none =>
      match scan (scanInput s) s.bitLen.toNat 0 [] 0 s.outMem with
      | .done n out => .next (decodeResult n out (decodeTableRegs s)).succeed
      | .failed e pos => .next ((decodeFailure (decodeTableRegs s)).raise e (BitVec.ofNat 32 pos))

/-- CLEAR past issue: the tables and the result registers at their reset values (R207). -/
def clearRun (s : State) : State :=
  { s with
    freq := Vector.replicate 256 0
    node := Vector.replicate 511 Node.blank
    code := emptyCodes
    root := Config.nil
    nodeCount := 0
    nsym := 0
    maxCodeLen := 0
    outLen := 0
    lastBits := 0 }

/-- CLEAR (R207). -/
def execClear (s : State) : Result := .next (clearRun s).succeed

/-- ILLEGAL, every word the decoder refuses: completes with E_ILLEGAL_CMD and the word (R208). -/
def execIllegal (w : Word) (s : State) : Result := .next (s.raise .illegalCmd w)

end Sys2Proof.Machine
end

