-- ==== Sys2Proof/Machine/Bus.lean ====
section
/-! DEFINITION. The host port: the address map (R71), what each transaction reaches, and the two host
transactions HOST_READ and HOST_WRITE (spec/46_commands.md R200, R201). -/

namespace Sys2Proof.Machine

/-- The registers of the register map (R23). -/
inductive Reg where
  | id | cmd | status | ctrl | inLen | bitLen | outLen | lastBits | nsym | maxCodeLen
  | nodeCount | root | errInfo | inCap | outCap
  deriving DecidableEq, Repr

/-- The register at word `n` of the register window, offset 4n (R23). -/
def Reg.ofWord : Nat → Option Reg
  | 0 => some .id
  | 1 => some .cmd
  | 2 => some .status
  | 3 => some .ctrl
  | 4 => some .inLen
  | 5 => some .bitLen
  | 6 => some .outLen
  | 7 => some .lastBits
  | 8 => some .nsym
  | 9 => some .maxCodeLen
  | 10 => some .nodeCount
  | 11 => some .root
  | 12 => some .errInfo
  | 13 => some .inCap
  | 14 => some .outCap
  | _ => none

/-- The offset of a register (R23). -/
def Reg.offset : Reg → Word
  | .id => 0x00
  | .cmd => 0x04
  | .status => 0x08
  | .ctrl => 0x0C
  | .inLen => 0x10
  | .bitLen => 0x14
  | .outLen => 0x18
  | .lastBits => 0x1C
  | .nsym => 0x20
  | .maxCodeLen => 0x24
  | .nodeCount => 0x28
  | .root => 0x2C
  | .errInfo => 0x30
  | .inCap => 0x34
  | .outCap => 0x38

/-- What an address reaches (R113). -/
inductive Target where
  | reg (r : Reg)
  | freq (s : Nat)
  | node (i k : Nat)
  | code (s k : Nat)
  | inMem (w : Nat)
  | outMem (w : Nat)
  deriving DecidableEq, Repr

/-- The address map (R71, R74, R75): the one place an address reaches, or `none`, refused, for a
misaligned, unmapped or reserved one. -/
def decodeAddr (p : Config.Params) (a : Word) : Option Target :=
  let n := a.toNat
  if n % 4 ≠ 0 then none
  else if n < 0x100 then (Reg.ofWord (n / 4)).map .reg
  else if n < 0x400 then none
  else if n < 0x800 then some (.freq ((n - 0x400) / 4))
  else if n < 0x2000 then none
  else if n < 0x4000 then some (.node ((n - 0x2000) / 16) ((n - 0x2000) % 16 / 4))
  else if n < 0x8000 then
    if (n - 0x4000) % 64 / 4 ≤ 8 then some (.code ((n - 0x4000) / 64) ((n - 0x4000) % 64 / 4)) else none
  else if n < 0x10000000 then none
  else if n < 0x10000000 + p.inCap then some (.inMem ((n - 0x10000000) / 4))
  else if n < 0x20000000 then none
  else if n < 0x20000000 + p.outCap then some (.outMem ((n - 0x20000000) / 4))
  else none

/-- The value of a register (R24 to R38; CMD reads 0). -/
def Reg.value (s : State) : Reg → Word
  | .id => Config.idValue
  | .cmd => 0
  | .status => statusWord s
  | .ctrl => ctrlWord s
  | .inLen => s.inLen
  | .bitLen => s.bitLen
  | .outLen => s.outLen
  | .lastBits => s.lastBits.setWidth 32
  | .nsym => s.nsym.setWidth 32
  | .maxCodeLen => s.maxCodeLen.setWidth 32
  | .nodeCount => s.nodeCount.setWidth 32
  | .root => s.root.setWidth 32
  | .errInfo => s.errInfo
  | .inCap => BitVec.ofNat 32 s.params.inCap
  | .outCap => BitVec.ofNat 32 s.params.outCap

/-- `value(addr)` of R200. -/
def Target.value (s : State) : Target → Word
  | .reg r => r.value s
  | .freq t => freqAt s.freq t
  | .node i k => nodeWord (nodeAt s.node i) k
  | .code t k => codeWord (codeAt s.code t) k
  | .inMem w => inWord s.inMem w
  | .outMem w => outWord s.outMem w

/-- The registers whose reads return `any` while BUSY (R49 (c)). -/
def Reg.volatile : Reg → Bool
  | .id | .cmd | .status | .ctrl | .inLen | .inCap | .outCap => false
  | .bitLen | .outLen | .lastBits | .nsym | .maxCodeLen | .nodeCount | .root | .errInfo => true

/-- The volatile set of R49 (c). -/
def Target.volatile : Target → Bool
  | .reg r => r.volatile
  | .freq _ | .node _ _ | .code _ _ | .outMem _ => true
  | .inMem _ => false

/-- The ERROR response, read data 0 (R72). -/
def Response.refused : Response := { code := .error, data := 0 }

/-- HOST_READ(addr) (R200). The state changes only in the model's draw counter, and only when the
data is `any` (R49 (c)). -/
def hostRead (addr : Word) (s : State) : Response × State :=
  match decodeAddr s.params addr with
  | none => (Response.refused, s)
  | some t =>
    if s.busy && t.volatile then
      ({ code := .okay, data := Config.freeReadData s.draws }, { s with draws := s.draws + 1 })
    else ({ code := .okay, data := t.value s }, s)

/-- The state after an accepted write of `v` to a place, or `none` where the place is read-only
(R201). -/
def Target.write (v : Word) (s : State) : Target → Option State
  | .reg .cmd => some (s.issue v)
  | .reg .status => some (s.writeStatus v)
  | .reg .ctrl => some { s with irqEn := v.getLsbD 0 }
  | .reg .inLen => some { s with inLen := v }
  | .reg .bitLen => some { s with bitLen := v }
  | .reg .id | .reg .outLen | .reg .lastBits | .reg .nsym | .reg .maxCodeLen | .reg .nodeCount
  | .reg .root | .reg .errInfo | .reg .inCap | .reg .outCap => none
  | .code t k => some { s with code := s.code.setIfInBounds t ((codeAt s.code t).setWord k v) }
  | .inMem w => some { s with inMem := s.inMem.setWord w v }
  | .freq _ | .node _ _ | .outMem _ => none

/-- HOST_WRITE(addr, v) (R201): refused when the address is, while BUSY, and to a read-only place; a
refused write changes nothing (R72). -/
def hostWrite (addr v : Word) (s : State) : Response × State :=
  match decodeAddr s.params addr with
  | none => (Response.refused, s)
  | some t =>
    if s.busy then (Response.refused, s)
    else
      match t.write v s with
      | none => (Response.refused, s)
      | some s' => ({ code := .okay, data := 0 }, s')

/-- One host transaction: its response and the state it leaves (R112). -/
def perform : Transaction → State → Response × State
  | .read a, s => hostRead a s
  | .write a v, s => hostWrite a v s

end Sys2Proof.Machine
end

