-- ==== Sys2Proof/Machine/HostProgram.lean ====
section
/-! DEFINITION. The HOST agent: its step, one statement of its program at a time, and the addresses and
pseudo-instructions of the host program notation (spec/30_encoding.md R110 to R112). -/

namespace Sys2Proof.Machine

/-! ### Addresses of the notation (R110) -/

/-- `IN+i`. -/
def inAddr (i : Nat) : Word := BitVec.ofNat 32 (0x10000000 + i)

/-- `OUT+i`. -/
def outAddr (i : Nat) : Word := BitVec.ofNat 32 (0x20000000 + i)

/-- The address of word k of CODE_MEM entry s, 0x4000 + 64·s + 4·k: R110 writes it `CODE(s)+k`, while
the programs of spec/95_test_vectors.md write `CODE(s)+4k`, counting bytes; the address is the same
(assumption 13). -/
def codeAddr (s k : Nat) : Word := BitVec.ofNat 32 (0x4000 + 64 * s + 4 * k)

/-- The address of word k of NODE_MEM entry i, 0x2000 + 16·i + 4·k: `NODE(i)+k` in R110, `NODE(i)+4k`
in spec/95_test_vectors.md (assumption 13). -/
def nodeAddr (i k : Nat) : Word := BitVec.ofNat 32 (0x2000 + 16 * i + 4 * k)

/-- `FREQ(s)`. -/
def freqAddr (s : Nat) : Word := BitVec.ofNat 32 (0x0400 + 4 * s)

/-! ### Statements -/

/-- The word a name stands for. -/
def HostAgent.nameValue (h : HostAgent) (n : Nat) : Word :=
  (lookupKey h.names n).getD (Config.freeHostName n)

/-- The word a value operand stands for. -/
def HostValue.eval (h : HostAgent) : HostValue → Word
  | .lit v => v
  | .named n => h.nameValue n

/-- Whether a branch condition holds. -/
def HostCond.holds (h : HostAgent) : HostCond → Bool
  | .bitIs n i v => (h.nameValue n).getLsbD i == v
  | .wordIs n v => h.nameValue n == v

/-- The transaction a statement encodes as (R112); a label and a branch encode as none. -/
def HostStmt.transaction? (h : HostAgent) : HostStmt → Option Transaction
  | .wr a v => some (.write a (v.eval h))
  | .rd a => some (.read a)
  | .rdTo a _ => some (.read a)
  | .rdExpect a _ => some (.read a)
  | .label _ => none
  | .ifGoto _ _ => none

/-- The name a statement gives its read data. -/
def HostStmt.binds? : HostStmt → Option Nat
  | .rdTo _ n => some n
  | .wr _ _ | .rd _ | .rdExpect _ _ | .label _ | .ifGoto _ _ => none

/-- Where a label stands, from position `i` on. The model's choice where the spec is silent
(assumption 8): the first place when it stands twice, the program's end when it stands nowhere. -/
def labelPos (l : Nat) : List HostStmt → Nat → Nat
  | [], i => i
  | st :: r, i => if st = .label l then i else labelPos l r (i + 1)

/-- The position after a statement: the next one, or a taken branch's label. -/
def HostStmt.nextPos (h : HostAgent) : HostStmt → Nat
  | .ifGoto c l => if c.holds h then labelPos l h.prog 0 else h.pos + 1
  | .wr _ _ | .rd _ | .rdTo _ _ | .rdExpect _ _ | .label _ => h.pos + 1

/-- The host after a statement whose transaction, if it had one, was answered with `r`. -/
def HostAgent.after (h : HostAgent) (st : HostStmt) (r : Option Response) : HostAgent :=
  { h with
    pos := st.nextPos h
    resp := r.or h.resp
    names := match st.binds?, r with
      | some n, some x => insertKey h.names n x.data
      | _, _ => h.names }

/-- One step of the HOST agent. It is not enabled while `rst` is asserted (R260) nor past the
program's end, and then changes nothing; a branch or a label makes no transaction (R110). That a branch
or a label takes a turn of the HOST's own is the model's choice (assumption 8): R6 and R82 give the HOST
transaction steps and say nothing of the statements between them. -/
def hostStep (s : State) : State :=
  if s.rst then s
  else
    match s.host.prog[s.host.pos]? with
    | none => s
    | some st =>
      match st.transaction? s.host with
      | none => { s with host := s.host.after st none }
      | some t =>
        let (r, s') := perform t s
        { s' with host := s.host.after st (some r) }

/-! ### Pseudo-instructions (R111) -/

/-- `WAIT`: poll STATUS until BUSY = 0. R111 writes the label w and the name t in every expansion; the
model takes them as arguments, so that two WAITs of one program can have labels of their own
(assumption 8). -/
def waitStmts (l t : Nat) : List HostStmt :=
  [.label l, .rdTo Reg.status.offset t, .ifGoto (.bitIs t 0 true) l]

/-- `CMD op`; `ENCODE`, `DECODE`, `CLEAR` and `NOP` are this with their command word. -/
def cmdStmts (op : Word) (l t : Nat) : List HostStmt :=
  .wr Reg.cmd.offset (.lit op) :: waitStmts l t

/-- `ACK`: clear DONE. -/
def ackStmts : List HostStmt := [.wr Reg.status.offset (.lit 2)]

/-- `LOADIN i, b0, b1, b2, b3`. -/
def loadInStmts (i : Nat) (b0 b1 b2 b3 : Byte) : List HostStmt :=
  [.wr (inAddr i) (.lit (wordOfBytes b0 b1 b2 b3))]

/-- The transaction list a program encodes as, without running it (R112). The model's choice where the
spec is silent (assumption 14): a write of named data takes the data the host `h` has under the name,
not what the program's own reads would give it, and each read counts once, a polled one too. -/
def encodeProgram (h : HostAgent) (p : List HostStmt) : List Transaction :=
  p.filterMap (HostStmt.transaction? h)

/-- A program whose addresses are word-aligned (R112) and whose branches go to labels it has. -/
def programWf (p : List HostStmt) : Bool :=
  p.all fun st =>
    match st with
    | .wr a _ | .rd a | .rdTo a _ | .rdExpect a _ => a.toNat % 4 == 0
    | .label _ => true
    | .ifGoto _ l => p.contains (.label l)

end Sys2Proof.Machine
end

