-- ==== Sys2Proof/Machine/Agents.lean ====
section
/-! DEFINITION. The steps of the interleaving: the BLOCK's completion step, a change of the reset input,
and whose turn it is (R5, R82, R203, R260, R263). -/

namespace Sys2Proof.Machine

/-- `run(v)` with completion: the decoded command's meaning, or ILLEGAL (R203). -/
def runWord (v : Word) (s : State) : Result :=
  match decode v with
  | .ok i => exec i s
  | .error _ => execIllegal v s

/-- The BLOCK's step: complete the command in flight; not enabled when idle or while `rst` is
asserted, and then nothing changes (R203, R260). -/
def blockStep (s : State) : Result :=
  if s.rst then .next s
  else
    match s.phase with
    | .idle => .next s
    | .busy v => runWord v s

/-- `rst` takes a level: while it is asserted and when it is released, every piece of state is at its
reset value (R48, R260, R261). Every turn of this kind resets, also one that gives `rst` the level it
has: a release while it is released, which R48 and R260 do not speak of, resets the block too by the
model's choice (assumption 6). -/
def resetStep (level : Bool) (s : State) : State := { s.applyReset with rst := level }

/-- Whose turn the schedule names, and the state with that turn taken from it. With no turn left the
BLOCK moves when a command is in flight, so every command completes (R263), else the HOST
(assumption 3). -/
def nextTurn (s : State) : Turn × State :=
  match s.turns with
  | t :: ts => (t, { s with turns := ts })
  | [] => (if s.busy then .block else .host, s)

/-- One step of the agent whose turn it is. -/
def takeTurn : Turn × State → Result
  | (.host, s) => .next (hostStep s)
  | (.block, s) => blockStep s
  | (.rst level, s) => .next (resetStep level s)

/-- The state in which command word `v` is in flight and the BLOCK moves next: what an accepted CMD
write leaves (R202), with `rst` released and no other turn before the completion. -/
def State.withCommand (v : Word) (s : State) : State :=
  { s.issue v with rst := false, turns := [] }

end Sys2Proof.Machine
end

