-- ==== Sys2Proof/Machine/Step.lean ====
section
/-! DEFINITION. The step of the machine, and how a command word is placed where the next step runs it.
The block fetches no instructions (R86): its command word is captured whole at the CMD write, and
stands in PHASE = BUSY(word) until the completion step (R22, R203). -/

namespace Sys2Proof.Machine

/-- One step of the interleaving of HOST transactions, BLOCK completions and reset changes (R82); a
configuration outside R7 is refused. -/
def step (s : State) : Host.Outcome State Fault Refusal :=
  if s.params.wf then takeTurn (nextTurn s) else .refused .badParams

/-- `s` with the command word of `w`'s low `nbits` bits in flight and the completion step next. -/
def State.withFetchWord (s : State) (nbits w : Nat) : State :=
  s.withCommand (BitVec.ofNat 32 (w % 2 ^ nbits))

end Sys2Proof.Machine
end

