-- ==== Sys2Proof/Safety.lean ====
section
/-! DEFINITION. The terms claims are stated in: the address map in words (R71), the legal states of the
flags, the queue and the node arena, and what a code table and a stream are, without the algorithms
that compute them. -/

namespace Sys2Proof.Machine

/-! ### The address map, as the table of R71 lists it -/

/-- Addresses the map marks unmapped or reserved, and CODE_MEM words 9..15 (R71, R75). -/
def UnmappedAddr (p : Config.Params) (n : Nat) : Prop :=
  (0x3C ≤ n ∧ n ≤ 0x3FF) ∨ (0x800 ≤ n ∧ n ≤ 0x1FFF) ∨
  (0x4000 ≤ n ∧ n ≤ 0x7FFF ∧ 36 ≤ (n - 0x4000) % 64) ∨ (0x8000 ≤ n ∧ n ≤ 0xFFFFFFF) ∨
  (0x10000000 + p.inCap ≤ n ∧ n ≤ 0x1FFFFFFF) ∨ 0x20000000 + p.outCap ≤ n

/-- Addresses of read-only registers and regions (R23, R71). -/
def ReadOnlyAddr (p : Config.Params) (n : Nat) : Prop :=
  n ≤ 0x3 ∨ (0x18 ≤ n ∧ n ≤ 0x3B) ∨ (0x400 ≤ n ∧ n ≤ 0x7FF) ∨ (0x2000 ≤ n ∧ n ≤ 0x3FFF) ∨
  (0x20000000 ≤ n ∧ n < 0x20000000 + p.outCap)

/-- The OKAY response of a read, with its data (R72); with data 0, the model's choice (assumption 11), of
a write. -/
def Response.okay (v : Word) : Response := { code := .okay, data := v }

/-- The ERROR response: read data 0x00000000 (R72); the data of a refused write is the model's choice
(assumption 11). -/
def Response.error : Response := { code := .error, data := 0 }

/-! ### Legal states -/

/-- The legal values of STATUS (R26), with the codes R231 never reports left out. -/
structure State.StatusLegal (s : State) : Prop where
  busyClears : s.busy = true → s.done = false ∧ s.err = false ∧ s.errCode = 0
  errIffCode : s.err = true ↔ s.errCode ≠ 0
  codeReported : s.errCode.toNat ≤ 7

/-- Both byte memories are in canonical form (assumption 1). -/
structure State.MemoryCanonical (s : State) : Prop where
  inMem : s.inMem.wf
  outMem : s.outMem.wf

/-- No draw that made a memory `any` can be taken again (assumption 1). -/
structure State.DrawsFresh (s : State) : Prop where
  inMem : s.inMem.stamp < s.draws
  outMem : s.outMem.stamp < s.draws

/-- The queue is empty between commands (R45), and NODE_MEM is valid exactly below NODE_COUNT and all
zero above (R41). -/
structure State.ArenaLegal (s : State) : Prop where
  queueEmpty : s.queue = []
  validBelow : ∀ i, i < 511 → ((nodeAt s.node i).valid = true ↔ i < s.nodeCount.toNat)
  blankAbove : ∀ i, s.nodeCount.toNat ≤ i → nodeAt s.node i = Node.blank
  countShape : s.nodeCount.toNat = 0 ∨ ∃ k, 1 ≤ k ∧ k ≤ 256 ∧ s.nodeCount.toNat = 2 * k - 1

/-- The result counts stay in the ranges R31 and R32 give them. -/
structure State.CountsLegal (s : State) : Prop where
  lastBits : s.lastBits.toNat ≤ 8
  nsym : s.nsym.toNat ≤ 256

/-- Every piece of block state is at its reset value; the byte memories are `any` (R50). -/
structure State.AtReset (s : State) : Prop where
  phase : s.phase = .idle
  status : s.done = false ∧ s.err = false ∧ s.errCode = 0
  irqEn : s.irqEn = false
  lengths : s.inLen = 0 ∧ s.bitLen = 0 ∧ s.outLen = 0 ∧ s.lastBits = 0
  counts : s.nsym = 0 ∧ s.maxCodeLen = 0 ∧ s.nodeCount = 0
  root : s.root = 0x1FF
  errInfo : s.errInfo = 0
  tables : (∀ x, freqAt s.freq x = 0) ∧ (∀ i, nodeAt s.node i = Node.blank) ∧
    (∀ x, codeAt s.code x = CodeEntry.blank)
  memories : s.inMem.cells = [] ∧ s.outMem.cells = []
  queue : s.queue = []

/-- While `rst` is asserted the block is at its reset values (R260). -/
def State.ResetHeld (s : State) : Prop := s.rst = true → s.AtReset

/-- A step neither faults nor is refused. -/
def SafeStep (s : State) : Prop := ∃ t, step s = .next t

/-! ### Code tables and streams -/

/-- The code of a symbol (R105). -/
def codeOf (t : Vector CodeEntry 256) (x : Byte) : BitString := (codeAt t x.toNat).code

/-- A symbol is present in a code table (R181). -/
def Present (t : Vector CodeEntry 256) (x : Byte) : Prop := (codeAt t x.toNat).len ≠ 0

/-- Two present symbols, the first one's code a prefix of the other's (R182). -/
def Clash (t : Vector CodeEntry 256) (x y : Byte) : Prop :=
  x ≠ y ∧ Present t x ∧ Present t y ∧ codeOf t x <+: codeOf t y

/-- No present code is a prefix of, or equal to, another (R164 (a), R182). -/
def PrefixFree (t : Vector CodeEntry 256) : Prop := ∀ x y, ¬ Clash t x y

/-- The number of present symbols (R181). -/
def presentCount (t : Vector CodeEntry 256) : Nat :=
  (List.range 256).countP fun x => (codeAt t x).len != 0

/-- The longest code length of a table, 0 for an empty one (R163, R181). -/
def longestLen (t : Vector CodeEntry 256) : Nat :=
  ((List.range 256).map fun x => (codeAt t x).len.toNat).foldr max 0

/-- The concatenation of the codes of a symbol sequence (R109, R170). -/
def streamOf (t : Vector CodeEntry 256) (xs : List Byte) : BitString := xs.flatMap (codeOf t)

/-- The stream DECODE reads, positions 0..BITLEN − 1 of IN_MEM (R183, R185). -/
def inStream (s : State) : BitString := (List.range s.bitLen.toNat).map (streamBit s.inMem)

/-- The lengths DC_RANGE accepts (R180). -/
def RangeOk (s : State) : Prop :=
  s.inLen.toNat ≤ s.params.inCap ∧ s.bitLen.toNat ≤ 8 * s.inLen.toNat

/-- Following a bit string from node `i`, left on 0 and right on 1, through internal nodes only, ends
at node `j` (R161). -/
def LeadsTo (node : Vector Node 511) : Nat → BitString → Nat → Prop
  | i, [], j => i = j
  | i, b :: p, j =>
    (nodeAt node i).valid = true ∧ (nodeAt node i).leaf = false ∧
    LeadsTo node (if b then (nodeAt node i).right.toNat else (nodeAt node i).left.toNat) p j

/-- key(i) < key(j), lexicographically (R140). -/
def KeyBefore (node : Vector Node 511) (i j : Nat) : Prop :=
  (nodeAt node i).freq.toNat < (nodeAt node j).freq.toNat ∨
  ((nodeAt node i).freq.toNat = (nodeAt node j).freq.toNat ∧ i < j)

/-- Node `c` is a child of node `i` (R41). -/
def IsChild (node : Vector Node 511) (c i : Nat) : Prop :=
  (nodeAt node i).left.toNat = c ∨ (nodeAt node i).right.toNat = c

/-- The state an ENCODE can run on from a run: a legal instance, IN_LEN within IN_MEM, and the queue
empty, as it is between commands (R45, R205). -/
structure EncodeReady (s : State) : Prop where
  params : s.params.wf = true
  inLen : s.inLen.toNat ≤ s.params.inCap
  queue : s.queue = []

end Sys2Proof.Machine
end

