-- ==== Sys2Proof/Certificates/Slice0/Obligations.lean ====
section
/-! DEFINITION. The statements for the provers, one definition each, in the order of OBLIGATIONS.json;
each docstring names the rules of spec/ it formalises. -/

open Sys2Proof Sys2Proof.Machine

/-! ### The command word -/

/-- R101, R102: words written out bit by bit from the opcode map, and two illegal ones. -/
def Obligations.OpcodeMapWords : Prop :=
  decode 0b00000000000000000000000000000000 = .ok .nop ∧
  decode 0b00000000000000000000000000000001 = .ok .encode ∧
  decode 0b00000000000000000000000000000010 = .ok .decode ∧
  decode 0b00000000000000000000000000000011 = .ok .clear ∧
  decode 0b00000000000000000000000000000100 = .error .reservedOpcode ∧
  decode 0b00000000000000000000000100000001 = .error .mbzNotZero

/-- R101: decoding the word of a well-formed command gives the command back. -/
def Obligations.DecodeOfEncodeIsCommand : Prop :=
  ∀ i : Instr, i.wf = true → decode (encode i) = .ok i

/-- R101, R102: a word is a command exactly when it is one of the four words of the map, and no word
hits two rows of it. -/
def Obligations.OnlyMapWordsAreLegal : Prop :=
  (∀ (w : Word) (i : Instr), decode w = .ok i ↔ w = encode i) ∧
  (∀ w : Word, (∀ i, w ≠ encode i) ↔ ∃ e, decode w = .error e) ∧
  opTable.Pairwise fun r r' => ∀ w : Word, ¬ (r.hits w = true ∧ r'.hits w = true)

/-! ### The host port -/

/-- R74, R72: a misaligned transaction gets ERROR, in every region and PHASE, and changes nothing.
The data 0 in the response of a refused write is the model's choice (assumption 11). -/
def Obligations.MisalignedTransactionRefused : Prop :=
  ∀ (s : State) (a v : Word), a.toNat % 4 ≠ 0 →
    hostRead a s = (.error, s) ∧ hostWrite a v s = (.error, s)

/-- R75: transactions to unmapped and reserved addresses and CODE_MEM words 9..15, and writes to
read-only places, get ERROR in every PHASE and change nothing.
The data 0 in the response of a refused write is the model's choice (assumption 11). -/
def Obligations.UnmappedAndReadOnlyRefused : Prop :=
  ∀ (s : State) (a v : Word), s.params.wf = true →
    (UnmappedAddr s.params a.toNat → hostRead a s = (.error, s) ∧ hostWrite a v s = (.error, s)) ∧
    (ReadOnlyAddr s.params a.toNat → hostWrite a v s = (.error, s))

/-- R26: a STATUS read returns BUSY, DONE, ERR and ERR_CODE in their bits, in every PHASE, and zero in
the reserved bits. -/
def Obligations.StatusReadShowsFlags : Prop :=
  ∀ s : State, ∃ w : Word, hostRead 0x08 s = (.okay w, s) ∧
    (w.getLsbD 0 = true ↔ s.phase ≠ .idle) ∧ w.getLsbD 1 = s.done ∧ w.getLsbD 2 = s.err ∧
    w.getLsbD 3 = false ∧ w.extractLsb' 4 4 = s.errCode ∧ w.extractLsb' 8 24 = 0

/-- R23 to R38: what a read of each register returns when idle, zero-extended, with no effect. -/
def Obligations.IdleRegisterReads : Prop :=
  ∀ s : State, s.phase = .idle →
    hostRead 0x00 s = (.okay 0x48554631, s) ∧ hostRead 0x04 s = (.okay 0, s) ∧
    hostRead 0x0C s = (.okay (if s.irqEn then 1 else 0), s) ∧
    hostRead 0x10 s = (.okay s.inLen, s) ∧ hostRead 0x14 s = (.okay s.bitLen, s) ∧
    hostRead 0x18 s = (.okay s.outLen, s) ∧
    hostRead 0x1C s = (.okay (BitVec.ofNat 32 s.lastBits.toNat), s) ∧
    hostRead 0x20 s = (.okay (BitVec.ofNat 32 s.nsym.toNat), s) ∧
    hostRead 0x24 s = (.okay (BitVec.ofNat 32 s.maxCodeLen.toNat), s) ∧
    hostRead 0x28 s = (.okay (BitVec.ofNat 32 s.nodeCount.toNat), s) ∧
    hostRead 0x2C s = (.okay (BitVec.ofNat 32 s.root.toNat), s) ∧
    hostRead 0x30 s = (.okay s.errInfo, s) ∧
    hostRead 0x34 s = (.okay (BitVec.ofNat 32 s.params.inCap), s) ∧
    hostRead 0x38 s = (.okay (BitVec.ofNat 32 s.params.outCap), s)

/-- R107: word s of FREQ_MEM is FREQ[s], and is read-only to the host.
The data 0 in the response of a refused write is the model's choice (assumption 11). -/
def Obligations.FreqWordsReadOnly : Prop :=
  ∀ (s : State) (x : Nat) (v : Word), s.phase = .idle → x < 256 →
    hostRead (freqAddr x) s = (.okay (freqAt s.freq x), s) ∧
    hostWrite (freqAddr x) v s = (.error, s)

/-- R106: the four words of NODE_MEM entry i, entry 511 and unused entries reading zero, all
read-only. That an unused entry is all zero is the invariant of R41, taken as a premise.
The data 0 in the response of a refused write is the model's choice (assumption 11). -/
def Obligations.NodeEntryWords : Prop :=
  ∀ (s : State) (i : Nat), s.phase = .idle → i ≤ 511 →
    (∃ w1 w2 w3 : Word,
      hostRead (nodeAddr i 0) s = (.okay (nodeAt s.node i).freq, s) ∧
      hostRead (nodeAddr i 1) s = (.okay w1, s) ∧
      hostRead (nodeAddr i 2) s = (.okay w2, s) ∧
      hostRead (nodeAddr i 3) s = (.okay w3, s) ∧
      w1.getLsbD 31 = (nodeAt s.node i).valid ∧ w1.getLsbD 30 = (nodeAt s.node i).leaf ∧
      w1.extractLsb' 8 22 = 0 ∧ w1.extractLsb' 0 8 = (nodeAt s.node i).sym ∧
      w2.extractLsb' 0 9 = (nodeAt s.node i).left ∧ w2.extractLsb' 9 23 = 0 ∧
      w3.extractLsb' 0 9 = (nodeAt s.node i).right ∧ w3.extractLsb' 9 23 = 0) ∧
    (i = 511 ∨ (s.ArenaLegal ∧ (nodeAt s.node i).valid = false) →
      ∀ k, k < 4 → hostRead (nodeAddr i k) s = (.okay 0, s)) ∧
    (∀ k v, k < 4 → hostWrite (nodeAddr i k) v s = (.error, s))

/-- R104, R105: the nine words W[0..8] a host reads from CODE_MEM entry x, the code assembled from them,
and the refused words 9..15.
The data 0 in the response of a refused write is the model's choice
(assumption 11). -/
def Obligations.CodeAssembledFromWords : Prop :=
  ∀ (s : State) (x : Nat), s.phase = .idle → x < 256 →
    (∃ W : Nat → Word, (∀ k, k ≤ 8 → hostRead (codeAddr x k) s = (.okay (W k), s)) ∧
      W 0 = BitVec.ofNat 32 (codeAt s.code x).len.toNat ∧
      (codeAt s.code x).code =
        (List.range (W 0).toNat).map fun j => (W (1 + j / 32)).getLsbD (31 - j % 32)) ∧
    (∀ k v, 9 ≤ k → k ≤ 15 →
      hostRead (codeAddr x k) s = (.error, s) ∧ hostWrite (codeAddr x k) v s = (.error, s))

/-- R104, R201: an idle host write of a CODE_MEM word changes that field of that entry and nothing
else: LEN from bits [7:0] of word 0, BITS[32m + t] from bit 31 − t of word 1 + m.
The data 0 in the response of a write is the model's choice
(assumption 11). -/
def Obligations.CodeWordWrites : Prop :=
  ∀ (s : State) (x : Nat) (v : Word), s.phase = .idle → x < 256 →
    (∃ t, hostWrite (codeAddr x 0) v s = (.okay 0, t) ∧ t = { s with code := t.code } ∧
      (codeAt t.code x).len = v.extractLsb' 0 8 ∧ (codeAt t.code x).bits = (codeAt s.code x).bits ∧
      (∀ y, y ≠ x → codeAt t.code y = codeAt s.code y) ∧
      hostRead (codeAddr x 0) t = (.okay (BitVec.ofNat 32 (v.toNat % 256)), t)) ∧
    (∀ m, m < 8 → ∃ t, hostWrite (codeAddr x (1 + m)) v s = (.okay 0, t) ∧
      t = { s with code := t.code } ∧ (codeAt t.code x).len = (codeAt s.code x).len ∧
      (∀ j, j < 256 → (codeAt t.code x).bit j =
        if j / 32 = m then v.getLsbD (31 - j % 32) else (codeAt s.code x).bit j) ∧
      (∀ y, y ≠ x → codeAt t.code y = codeAt s.code y) ∧
      hostRead (codeAddr x (1 + m)) t = (.okay v, t))

/-- R76, R78: an idle write of IN_MEM word w stores its four bytes little-endian, changes no other byte
and no other state, and reads back.
The data 0 in the response of a write is the model's choice
(assumption 11). The form of the memory beneath is the model's choice too (assumption 1). -/
def Obligations.InWordWriteReadsBack : Prop :=
  ∀ (s : State) (w : Nat) (v : Word), s.params.wf = true → s.phase = .idle →
    4 * w < s.params.inCap →
    ∃ t, hostWrite (inAddr (4 * w)) v s = (.okay 0, t) ∧ t = { s with inMem := t.inMem } ∧
      (∀ j, j < 4 → inByte t.inMem (4 * w + j) = v.extractLsb' (8 * j) 8) ∧
      (∀ i, i < 4 * w ∨ 4 * w + 4 ≤ i → inByte t.inMem i = inByte s.inMem i) ∧
      hostRead (inAddr (4 * w)) t = (.okay v, t)

/-- R79, R76: an idle read of OUT_MEM word w returns its four bytes little-endian, and every write of
it is refused.
The data 0 in the response of a refused write is the model's choice
(assumption 11). -/
def Obligations.OutWordReadOnly : Prop :=
  ∀ (s : State) (w : Nat) (v : Word), s.params.wf = true → 4 * w < s.params.outCap →
    (s.phase = .idle → ∃ x : Word, hostRead (outAddr (4 * w)) s = (.okay x, s) ∧
      ∀ j, j < 4 → x.extractLsb' (8 * j) 8 = outByte s.outMem (4 * w + j)) ∧
    hostWrite (outAddr (4 * w)) v s = (.error, s)

/-- R26, R27, R28, R29: idle writes of STATUS, CTRL, IN_LEN and BITLEN, with all they change. The data 0
in a write's response is the model's choice (assumption 11). -/
def Obligations.RegisterWrites : Prop :=
  ∀ (s : State) (v : Word), s.phase = .idle →
    hostWrite 0x08 v s = (.okay 0, { s with done := if v.getLsbD 1 then false else s.done }) ∧
    hostWrite 0x0C v s = (.okay 0, { s with irqEn := v.getLsbD 0 }) ∧
    hostWrite 0x10 v s = (.okay 0, { s with inLen := v }) ∧
    hostWrite 0x14 v s = (.okay 0, { s with bitLen := v })

/-- R202: an accepted CMD write issues the word, legal or not: PHASE becomes BUSY(v), STATUS reads
0x00000001, irq is 0, and nothing else changes. The data 0 in the write's response is the model's
choice (assumption 11). -/
def Obligations.CmdWriteIssues : Prop :=
  ∀ (s : State) (v : Word), s.phase = .idle →
    hostWrite 0x04 v s =
      (.okay 0, { s with phase := .busy v, done := false, err := false, errCode := 0 }) ∧
    statusWord (hostWrite 0x04 v s).2 = 1 ∧ (hostWrite 0x04 v s).2.irq = false

/-- R49: while BUSY, every write is refused; ID, CMD, STATUS, CTRL, IN_LEN, IN_CAP, OUT_CAP and IN_MEM
read exactly; the volatile set reads OKAY with `any`; bad addresses are refused as ever. That `any` is
the free value of the model's own draw counter, which then moves on by one, is the model's choice
(assumption 2), and so is the data 0 in a refused write's response (assumption 11). -/
def Obligations.BusyVisibility : Prop :=
  ∀ (s : State) (c : Word), s.phase = .busy c → s.params.wf = true →
    (∀ a v, hostWrite a v s = (.error, s)) ∧
    (hostRead 0x00 s = (.okay 0x48554631, s) ∧ hostRead 0x04 s = (.okay 0, s) ∧
      hostRead 0x08 s = (.okay (statusWord s), s) ∧
      hostRead 0x0C s = (.okay (if s.irqEn then 1 else 0), s) ∧
      hostRead 0x10 s = (.okay s.inLen, s) ∧
      hostRead 0x34 s = (.okay (BitVec.ofNat 32 s.params.inCap), s) ∧
      hostRead 0x38 s = (.okay (BitVec.ofNat 32 s.params.outCap), s) ∧
      ∀ w, 4 * w < s.params.inCap → ∃ x : Word, hostRead (inAddr (4 * w)) s = (.okay x, s) ∧
        ∀ j, j < 4 → x.extractLsb' (8 * j) 8 = inByte s.inMem (4 * w + j)) ∧
    (∀ a : Word,
      ((∃ r ∈ [0x14, 0x18, 0x1C, 0x20, 0x24, 0x28, 0x2C, 0x30], a = r) ∨
       (∃ x, x < 256 ∧ a = freqAddr x) ∨ (∃ i k, i ≤ 511 ∧ k < 4 ∧ a = nodeAddr i k) ∨
       (∃ x k, x < 256 ∧ k ≤ 8 ∧ a = codeAddr x k) ∨
       (∃ w, 4 * w < s.params.outCap ∧ a = outAddr (4 * w))) →
      hostRead a s = (.okay (Config.freeReadData s.draws), { s with draws := s.draws + 1 })) ∧
    (∀ a : Word, a.toNat % 4 ≠ 0 ∨ UnmappedAddr s.params a.toNat → hostRead a s = (.error, s))

/-- R80: no read has a side effect, in any PHASE (the draw counter is the model's own, assumption 2);
when idle a second read of the address answers the same. -/
def Obligations.ReadsHaveNoSideEffect : Prop :=
  ∀ (s : State) (a : Word),
    (hostRead a s).2 = { s with draws := (hostRead a s).2.draws } ∧
    (s.phase = .idle → (hostRead a s).2 = s ∧ hostRead a (hostRead a s).2 = hostRead a s)

/-! ### NOP, CLEAR, illegal words -/

/-- R204: NOP completes with success and changes nothing but STATUS, ERR_INFO and PHASE. -/
def Obligations.NopCompletes : Prop :=
  ∀ s : State, exec .nop s =
    .next { s with phase := .idle, done := true, err := false, errCode := 0, errInfo := 0 }

/-- R207: CLEAR completes with the tables and result registers at their reset values and everything
else unchanged. -/
def Obligations.ClearCompletes : Prop :=
  ∀ s : State, ∃ t, exec .clear s = .next t ∧
    (∀ x, x < 256 → freqAt t.freq x = 0 ∧ (codeAt t.code x).len = 0 ∧ (codeAt t.code x).bits = 0) ∧
    (∀ i, i ≤ 510 → nodeAt t.node i = Node.blank) ∧
    t = { s with
      phase := .idle, done := true, err := false, errCode := 0, errInfo := 0, freq := t.freq,
      node := t.node, code := t.code, root := 0x1FF, nodeCount := 0, nsym := 0, maxCodeLen := 0,
      outLen := 0, lastBits := 0 }

/-- R208: the completion step of a word that is not one of the four ends with E_ILLEGAL_CMD, ERR_INFO
the word, and changes nothing else. That the step is the BLOCK's when its turn is next in the schedule,
or when no turn is left, and that it takes the turn, is the model's choice (assumption 3). -/
def Obligations.IllegalWordCompletes : Prop :=
  ∀ (s : State) (v : Word), s.params.wf = true → s.rst = false →
    s.phase = .busy v → v ≠ 0 → v ≠ 1 → v ≠ 2 → v ≠ 3 →
    (∀ ts, s.turns = .block :: ts → step s = .next { s with
      turns := ts, phase := .idle, done := true, err := true, errCode := 7, errInfo := v }) ∧
    (s.turns = [] → step s = .next { s with
      phase := .idle, done := true, err := true, errCode := 7, errInfo := v })

/-! ### ENCODE -/

/-- R205, R234: IN_LEN > IN_CAP ends ENCODE with E_LEN_RANGE and changes only STATUS and ERR_INFO. -/
def Obligations.EncodeLengthCheck : Prop :=
  ∀ s : State, s.params.inCap < s.inLen.toNat → exec .encode s =
    .next { s with phase := .idle, done := true, err := true, errCode := 4, errInfo := 0 }

/-- R205, R89: with IN_LEN in range ENCODE completes with success, writes only the registers and tables
listed, and leaves everything else as it was. -/
def Obligations.EncodeCompletes : Prop :=
  ∀ s : State, s.inLen.toNat ≤ s.params.inCap → ∃ t, exec .encode s = .next t ∧
    t = { s with
      phase := .idle, done := true, err := false, errCode := 0, errInfo := 0, freq := t.freq,
      nsym := t.nsym, node := t.node, queue := t.queue, root := t.root, nodeCount := t.nodeCount,
      code := t.code, maxCodeLen := t.maxCodeLen, outMem := t.outMem, bitLen := t.bitLen,
      outLen := t.outLen, lastBits := t.lastBits }

/-- R130, R131: FREQ[x] is the number of occurrences of x in IN[0..IN_LEN), and NSYM the number of
entries above 0. -/
def Obligations.EncodeCountsSymbols : Prop :=
  ∀ s : State, s.params.wf = true → s.inLen.toNat ≤ s.params.inCap →
    ∃ t, exec .encode s = .next t ∧
      (∀ x : Byte, (freqAt t.freq x.toNat).toNat = (inputBytes s).count x) ∧
      t.nsym.toNat = (List.range 256).countP (fun x => freqAt t.freq x != 0)

/-- R142: PQ_EXTRACT_MIN returns the member with the lexicographically smallest (FREQ, index) and the
queue without it, and answers for every non-empty queue. -/
def Obligations.ExtractMinTakesSmallestKey : Prop :=
  ∀ (node : Vector Node 511) (q : List Nat),
    (q ≠ [] → ∃ m, pqExtractMin node q = some (m, q.erase m)) ∧
    (∀ m q', pqExtractMin node q = some (m, q') →
      m ∈ q ∧ q' = q.erase m ∧ ∀ i ∈ q, i ≠ m → KeyBefore node m i)

/-- R41, R150, R151, R152, R153: the tree ENCODE leaves for a non-empty input: its leaves in ascending
symbol order with their counts, its internal nodes, the root and its frequency, one parent for every
other node, and the unused entries. -/
def Obligations.EncodeBuildsTree : Prop :=
  ∀ s : State, EncodeReady s → s.inLen ≠ 0 → ∃ t k, exec .encode s = .next t ∧
    k = (inputBytes s).dedup.length ∧ 1 ≤ k ∧ k ≤ 256 ∧ t.nsym.toNat = k ∧
    t.nodeCount.toNat = 2 * k - 1 ∧ t.root.toNat = 2 * k - 2 ∧ t.queue = [] ∧
    (∀ i, i < k → ∃ x : Byte, x ∈ inputBytes s ∧
      nodeAt t.node i = { valid := true, leaf := true, sym := x, freq := freqAt t.freq x.toNat,
                          left := 0x1FF, right := 0x1FF }) ∧
    (∀ i j, i < j → j < k → (nodeAt t.node i).sym < (nodeAt t.node j).sym) ∧
    (∀ i, k ≤ i → i < 2 * k - 1 →
      (nodeAt t.node i).valid = true ∧ (nodeAt t.node i).leaf = false ∧
      (nodeAt t.node i).sym = 0 ∧ (nodeAt t.node i).left.toNat < i ∧
      (nodeAt t.node i).right.toNat < i ∧ (nodeAt t.node i).left ≠ (nodeAt t.node i).right ∧
      (nodeAt t.node i).freq.toNat =
        (nodeAt t.node (nodeAt t.node i).left.toNat).freq.toNat +
        (nodeAt t.node (nodeAt t.node i).right.toNat).freq.toNat) ∧
    (∀ i, 2 * k - 1 ≤ i → nodeAt t.node i = Node.blank) ∧
    (nodeAt t.node t.root.toNat).freq = s.inLen ∧
    (∀ c, c < 2 * k - 2 → ∃ i, (k ≤ i ∧ i < 2 * k - 1 ∧ IsChild t.node c i) ∧
      ∀ i', k ≤ i' → i' < 2 * k - 1 → IsChild t.node c i' → i' = i)

/-- R151, R142: every internal node joins the two smallest keys of the nodes still unmerged when it was
made, the smaller one as its left child. -/
def Obligations.EncodeMergesTwoSmallest : Prop :=
  ∀ s : State, EncodeReady s → s.inLen ≠ 0 → ∃ t, exec .encode s = .next t ∧
    ∀ i, t.nsym.toNat ≤ i → i < t.nodeCount.toNat →
      KeyBefore t.node (nodeAt t.node i).left.toNat (nodeAt t.node i).right.toNat ∧
      ∀ j, j < i → (∀ i', t.nsym.toNat ≤ i' → i' ≤ i → ¬ IsChild t.node j i') →
        KeyBefore t.node (nodeAt t.node i).right.toNat j

/-- R161, R165: with two symbols or more, the code of each symbol present is the path from the root to
its leaf, stored with zeros beyond it, and an absent symbol's entry is empty. -/
def Obligations.EncodeCodesAreTreePaths : Prop :=
  ∀ s : State, EncodeReady s → 2 ≤ (inputBytes s).dedup.length → ∃ t, exec .encode s = .next t ∧
    ∀ x : Byte,
      (x ∈ inputBytes s → (∃ i, (nodeAt t.node i).leaf = true ∧ (nodeAt t.node i).sym = x ∧
          LeadsTo t.node t.root.toNat (codeOf t.code x) i) ∧
        ∀ j, (codeAt t.code x.toNat).len.toNat ≤ j → (codeAt t.code x.toNat).bit j = false) ∧
      (x ∉ inputBytes s → codeAt t.code x.toNat = CodeEntry.blank)

/-- R154, R162: an input of one distinct symbol gives a single leaf as root and the code "0". -/
def Obligations.EncodeSingleSymbol : Prop :=
  ∀ (s : State) (x : Byte), EncodeReady s → s.inLen ≠ 0 → (∀ b ∈ inputBytes s, b = x) →
    ∃ t, exec .encode s = .next t ∧ t.nsym = 1 ∧ t.root = 0 ∧ t.nodeCount = 1 ∧
      nodeAt t.node 0 = { valid := true, leaf := true, sym := x, freq := s.inLen,
                          left := 0x1FF, right := 0x1FF } ∧
      (∀ i, 1 ≤ i → nodeAt t.node i = Node.blank) ∧
      codeAt t.code x.toNat = { len := 1, bits := 0 } ∧ codeOf t.code x = [false] ∧
      (∀ y : Byte, y ≠ x → codeAt t.code y.toNat = CodeEntry.blank) ∧
      t.maxCodeLen = 1 ∧ t.bitLen = s.inLen

/-- R155, R205: the empty input gives an empty tree and table and no output, and succeeds. -/
def Obligations.EncodeEmptyInput : Prop :=
  ∀ s : State, s.inLen = 0 → ∃ t, exec .encode s = .next t ∧
    (∀ x, freqAt t.freq x = 0 ∧ codeAt t.code x = CodeEntry.blank) ∧
    (∀ i, nodeAt t.node i = Node.blank) ∧
    t = { s with
      phase := .idle, done := true, err := false, errCode := 0, errInfo := 0, freq := t.freq,
      node := t.node, code := t.code, nsym := 0, root := 0x1FF, nodeCount := 0, maxCodeLen := 0,
      bitLen := 0, outLen := 0, lastBits := 0 }

/-- R163: MAX_CODE_LEN is the longest length in the table ENCODE leaves, 0 for an empty one. -/
def Obligations.EncodeRecordsLongestCode : Prop :=
  ∀ s : State, s.inLen.toNat ≤ s.params.inCap → ∃ t, exec .encode s = .next t ∧
    t.maxCodeLen.toNat = longestLen t.code

/-- R164 (a), (b): the table ENCODE generates is prefix-free, and gives a code, never an empty one, to
exactly the symbols of the input. -/
def Obligations.EncodeTableIsPrefixFree : Prop :=
  ∀ s : State, EncodeReady s → ∃ t, exec .encode s = .next t ∧ PrefixFree t.code ∧
    ∀ x : Byte, (x ∈ inputBytes s ↔ Present t.code x) ∧ (x ∈ inputBytes s → codeOf t.code x ≠ [])

/-- R170, R171, R172, R173: OUT holds the concatenated codes of the input, most significant bit first and
zero-padded; bytes beyond are unchanged; BITLEN, OUT_LEN and LAST_BITS are the counts. -/
def Obligations.EncodePacksCodes : Prop :=
  ∀ s : State, s.inLen.toNat ≤ s.params.inCap → ∃ t n, exec .encode s = .next t ∧
    n = (streamOf t.code (inputBytes s)).length ∧
    (∀ m, m < (n + 7) / 8 → ∀ b, b < 8 → (outByte t.outMem m).getLsbD (7 - b) =
      (streamOf t.code (inputBytes s)).getD (8 * m + b) false) ∧
    (∀ m, (n + 7) / 8 ≤ m → outByte t.outMem m = outByte s.outMem m) ∧
    t.bitLen = BitVec.ofNat 32 n ∧ t.outLen = BitVec.ofNat 32 ((n + 7) / 8) ∧
    t.lastBits.toNat = if n = 0 then 0 else if n % 8 = 0 then 8 else n % 8

/-- R174, R9 (c): ENCODE packs at most 8 · IN_LEN bits, so OUT_LEN ≤ IN_LEN ≤ IN_CAP ≤ OUT_CAP and the
packer cannot overflow OUT_MEM. Both are the spec's own inferences: R174 is "derived: from rules R7 and
R9", and R9 (c) rests on the optimality of Huffman codes, "from general knowledge, not in source". -/
def Obligations.EncodeCannotOverflow : Prop :=
  ∀ s : State, EncodeReady s → ∃ t, exec .encode s = .next t ∧ t.errCode = 0 ∧
    (streamOf t.code (inputBytes s)).length ≤ 8 * s.inLen.toNat ∧
    t.bitLen.toNat = (streamOf t.code (inputBytes s)).length ∧
    t.outLen.toNat ≤ s.inLen.toNat ∧ s.inLen.toNat ≤ s.params.inCap ∧
    s.params.inCap ≤ s.params.outCap

/-- R205, R132, R272: what ENCODE leaves depends on IN[0..IN_LEN) alone: two states with the same input
bytes get the same tables, registers and packed bytes. -/
def Obligations.EncodeDependsOnInputOnly : Prop :=
  ∀ s s' : State, EncodeReady s → EncodeReady s' → inputBytes s = inputBytes s' →
    ∃ t t', exec .encode s = .next t ∧ exec .encode s' = .next t' ∧
      t.freq = t'.freq ∧ t.nsym = t'.nsym ∧ t.node = t'.node ∧ t.root = t'.root ∧
      t.nodeCount = t'.nodeCount ∧ t.code = t'.code ∧ t.maxCodeLen = t'.maxCodeLen ∧
      t.bitLen = t'.bitLen ∧ t.outLen = t'.outLen ∧ t.lastBits = t'.lastBits ∧
      ∀ i, i < t.outLen.toNat → outByte t.outMem i = outByte t'.outMem i

/-! ### DECODE -/

/-- R180, R234: the two length checks of DECODE, in their order; each changes only STATUS, ERR_INFO and
PHASE; lengths in range raise neither. -/
def Obligations.DecodeLengthChecks : Prop :=
  ∀ s : State,
    (s.params.inCap < s.inLen.toNat → exec .decode s =
      .next { s with phase := .idle, done := true, err := true, errCode := 4, errInfo := 0 }) ∧
    (s.inLen.toNat ≤ s.params.inCap → 8 * s.inLen.toNat < s.bitLen.toNat → exec .decode s =
      .next { s with phase := .idle, done := true, err := true, errCode := 5, errInfo := 0 }) ∧
    (RangeOk s → ∃ t, exec .decode s = .next t ∧ t.errCode ≠ 4 ∧ t.errCode ≠ 5)

/-- R182, R234, R236: a table with clashing codes ends DECODE with E_TABLE_INVALID, ERR_INFO naming the
lexicographically first clash (x, y), and changes nothing else; a prefix-free table never does. -/
def Obligations.DecodeRefusesClashingTable : Prop :=
  (∀ (s : State) (x y : Byte), RangeOk s → Clash s.code x y →
    (∀ x' y', Clash s.code x' y' → x < x' ∨ (x = x' ∧ y ≤ y')) →
    exec .decode s = .next { s with
      phase := .idle, done := true, err := true, errCode := 3,
      errInfo := BitVec.ofNat 32 (256 * y.toNat + x.toNat) }) ∧
  (∀ s : State, PrefixFree s.code → ∃ t, exec .decode s = .next t ∧ t.errCode ≠ 3)

/-- R181, R184, R185, R187: a stream that is the codes of xs, with a prefix-free table and room for
them, decodes to xs: OUT, OUT_LEN, LAST_BITS, NSYM, MAX_CODE_LEN, success, and nothing else changed.
That the scan finds just these symbols is an inference from those rules, which R184 gives in part. -/
def Obligations.DecodeReproducesSymbols : Prop :=
  ∀ (s : State) (xs : List Byte), RangeOk s → PrefixFree s.code → (∀ x ∈ xs, Present s.code x) →
    inStream s = streamOf s.code xs → xs.length ≤ s.params.outCap →
    ∃ m : ByteMem, exec .decode s = .next { s with
        phase := .idle, done := true, err := false, errCode := 0, errInfo := 0, outMem := m,
        outLen := BitVec.ofNat 32 xs.length, lastBits := if xs = [] then 0 else 8,
        nsym := BitVec.ofNat 9 (presentCount s.code),
        maxCodeLen := BitVec.ofNat 8 (longestLen s.code) } ∧
      (∀ i (h : i < xs.length), outByte m i = xs[i]) ∧
      (∀ i, xs.length ≤ i → outByte m i = outByte s.outMem i)

/-- R186, R235, R237: when after the codes of xs no present code starts the rest of the stream, DECODE
fails with E_DEC_NOMATCH if the rest has MAX_CODE_LEN bits or more, else E_DEC_TRUNCATED; ERR_INFO is
where the rest starts, no output is reported, OUT_MEM is `any`. That `any` is the memory of the model's
own draw counter, which then moves on by one, is the model's choice (assumption 1). -/
def Obligations.DecodeFailsWithoutMatch : Prop :=
  ∀ (s : State) (xs : List Byte) (rest : BitString), RangeOk s → PrefixFree s.code →
    (∀ x ∈ xs, Present s.code x) → inStream s = streamOf s.code xs ++ rest → rest ≠ [] →
    (∀ x, Present s.code x → ¬ codeOf s.code x <+: rest) → xs.length ≤ s.params.outCap →
    exec .decode s = .next { s with
      phase := .idle, done := true, err := true,
      errCode := if longestLen s.code ≤ rest.length then 1 else 2,
      errInfo := BitVec.ofNat 32 (streamOf s.code xs).length,
      outMem := ByteMem.any s.draws, draws := s.draws + 1, outLen := 0, lastBits := 0,
      nsym := BitVec.ofNat 9 (presentCount s.code),
      maxCodeLen := BitVec.ofNat 8 (longestLen s.code) }

/-- R189, R235, R237: a symbol that matches when OUT_CAP bytes are already written ends DECODE with
E_OUT_OVERFLOW at the position its code starts; with OUT_CAP ≥ 8 · IN_CAP that error never occurs. How
OUT_MEM is made `any` and the draw counter moves on is the model's choice (assumption 1). -/
def Obligations.DecodeOverflows : Prop :=
  (∀ (s : State) (xs : List Byte) (x : Byte) (rest : BitString), RangeOk s → PrefixFree s.code →
    (∀ y ∈ xs, Present s.code y) → Present s.code x →
    inStream s = streamOf s.code xs ++ codeOf s.code x ++ rest → xs.length = s.params.outCap →
    exec .decode s = .next { s with
      phase := .idle, done := true, err := true, errCode := 6,
      errInfo := BitVec.ofNat 32 (streamOf s.code xs).length,
      outMem := ByteMem.any s.draws, draws := s.draws + 1, outLen := 0, lastBits := 0,
      nsym := BitVec.ofNat 9 (presentCount s.code),
      maxCodeLen := BitVec.ofNat 8 (longestLen s.code) }) ∧
  (∀ s : State, 8 * s.params.inCap ≤ s.params.outCap →
    ∃ t, exec .decode s = .next t ∧ t.errCode ≠ 6)

/-- R188 (a), R88: the bits of IN_MEM at or beyond position BITLEN, padding among them, do not affect
what DECODE leaves.
After a scan error the two runs also get the same `any` bytes in OUT_MEM and the same draw counter: that
is the model's choice (assumption 1: the draw number chooses the free bytes), not a rule's. -/
def Obligations.DecodeIgnoresPadding : Prop :=
  ∀ (s t : State) (m : ByteMem),
    (∀ pos, pos < s.bitLen.toNat → streamBit m pos = streamBit s.inMem pos) →
    exec .decode s = .next t → exec .decode { s with inMem := m } = .next { t with inMem := m }

/-- R188 (b): ENCODE then DECODE of the triple it left gives the input back, whatever else the decoding
state holds. -/
def Obligations.DecodeOfEncodeIsInput : Prop :=
  ∀ s : State, EncodeReady s → ∃ t, exec .encode s = .next t ∧
    ∀ u : State, u.params = t.params → u.code = t.code → u.bitLen = t.bitLen → u.inLen = t.outLen →
      (∀ i, i < t.outLen.toNat → inByte u.inMem i = outByte t.outMem i) →
      ∃ v, exec .decode u = .next v ∧ v.errCode = 0 ∧ v.outLen = s.inLen ∧
        ∀ i, i < s.inLen.toNat → outByte v.outMem i = inByte s.inMem i

/-! ### Completion, errors, interrupt, reset -/

/-- R203, R230: every command completes from every state, with the block idle, DONE set and ERR telling
whether ERR_CODE is not 0. -/
def Obligations.EveryCommandCompletes : Prop :=
  ∀ (i : Instr) (s : State), ∃ t, exec i s = .next t ∧ t.phase = .idle ∧ t.done = true ∧
    (t.err = true ↔ t.errCode ≠ 0)

/-- R89: no command writes IN_MEM, CTRL, IN_LEN, IN_CAP or OUT_CAP; nor the host, the schedule or
`rst`. -/
def Obligations.CommandsNeverWriteInputs : Prop :=
  ∀ (i : Instr) (s t : State), exec i s = .next t →
    t.inMem = s.inMem ∧ t.irqEn = s.irqEn ∧ t.inLen = s.inLen ∧ t.params = s.params ∧
    t.host = s.host ∧ t.turns = s.turns ∧ t.rst = s.rst

/-- R47, R239: irq = DONE ∧ IRQ_EN at every moment, 0 after reset, and after every completion equal to
IRQ_EN. -/
def Obligations.InterruptFollowsDone : Prop :=
  (∀ s : State, s.irq = true ↔ s.done = true ∧ s.irqEn = true) ∧ State.reset.irq = false ∧
  (∀ (i : Instr) (s t : State), exec i s = .next t → t.irq = s.irqEn)

/-- R240: what makes irq fall, and that reading STATUS does not. That a release of `rst` while it is
released is a reset too is the model's choice (assumption 6). -/
def Obligations.InterruptClears : Prop :=
  ∀ (s : State) (v : Word), s.phase = .idle →
    (v.getLsbD 1 = true → (hostWrite 0x08 v s).2.irq = false) ∧
    (hostWrite 0x04 v s).2.irq = false ∧
    (v.getLsbD 0 = false → (hostWrite 0x0C v s).2.irq = false) ∧
    (∀ level, (resetStep level s).irq = false) ∧
    (hostRead 0x08 s).2.irq = s.irq

/-- R241: a host step leaves ERR_INFO alone, and ERR and ERR_CODE too unless it issues a command. -/
def Obligations.ErrorStaysUntilNextCommand : Prop :=
  ∀ s : State, (hostStep s).errInfo = s.errInfo ∧
    ((hostStep s).phase = s.phase → (hostStep s).err = s.err ∧ (hostStep s).errCode = s.errCode)

/-- R83, R49: while a command is in flight a host step changes no state of the block (the draw counter is
the model's own, assumption 2), so the command runs on the state of its issue. -/
def Obligations.BusyHostStepChangesNothing : Prop :=
  ∀ (s : State) (c : Word), s.phase = .busy c →
    hostStep s = { s with host := (hostStep s).host, draws := (hostStep s).draws }

/-- R50, R260, R261: a change of `rst` puts every piece of block state at its reset value, a command in
flight abandoned, both memories `any`; while it is asserted neither agent moves. The model's choices in
it: how the memories are drawn (assumption 1), that the change is a turn of the schedule (assumption 3),
and that the host and the parameters stay, that a turn given to an agent under `rst` changes nothing and
that a release of `rst` while it is released resets too (assumption 6). -/
def Obligations.ResetRestoresState : Prop :=
  (∀ (s : State) (level : Bool) (ts : List Turn), s.params.wf = true → s.turns = .rst level :: ts →
    ∃ t, step s = .next t ∧ t.AtReset ∧ t.irq = false ∧ t.rst = level ∧ t.params = s.params ∧
      t.inMem = ByteMem.any s.draws ∧ t.outMem = ByteMem.any s.draws ∧ t.host = s.host ∧
      t.turns = ts) ∧
  (∀ s : State, s.rst = true → hostStep s = s ∧ blockStep s = .next s)

/-! ### The step -/

/-- R203: with the BLOCK's turn next, or no turn left, the step of a busy block is `exec` of the decoded
command, on the state with that turn taken; and so it is for a word the host places. The schedule is the
model's choice (assumption 3), and so is `withFetchWord` (assumption 5). -/
def Obligations.StepRunsDecodedCommand : Prop :=
  ∀ (s : State) (i : Instr) (w : Word), s.params.wf = true → decode w = .ok i →
    (s.rst = false → s.phase = .busy w →
      (∀ ts, s.turns = .block :: ts → step s = exec i { s with turns := ts }) ∧
      (s.turns = [] → step s = exec i s)) ∧
    step (s.withFetchWord 32 w.toNat) = exec i (s.withFetchWord 32 w.toNat)

/-- R82, R201: a host's turn at a write statement performs that one transaction, and the host moves on
with its response. The schedule is the model's choice (assumption 3). -/
def Obligations.HostTurnPerformsWrite : Prop :=
  ∀ (s : State) (a v : Word) (ts : List Turn), s.params.wf = true → s.rst = false →
    s.turns = .host :: ts → s.host.prog[s.host.pos]? = some (.wr a (.lit v)) →
    step s = .next { (hostWrite a v { s with turns := ts }).2 with
      host := { s.host with
        pos := s.host.pos + 1, resp := some (hostWrite a v { s with turns := ts }).1 } }

/-- R262, R248: an idle block does nothing on a turn of its own. The schedule is the model's choice
(assumptions 3 and 9). -/
def Obligations.IdleBlockDoesNothing : Prop :=
  ∀ (s : State) (ts : List Turn), s.params.wf = true → s.phase = .idle → s.turns = .block :: ts →
    step s = .next { s with turns := ts }

/-- R7, R230: a step of a legal instance always answers a next state, and keeps the parameters; a
configuration that breaks a constraint is refused. That the parameters stand in State is the model's
choice (assumption 4). -/
def Obligations.StepNeverStops : Prop :=
  ∀ s : State,
    (s.params.wf = true → ∃ t, step s = .next t ∧ t.params = s.params) ∧
    (s.params.wf = false → step s = .refused .badParams)

/-! ### Invariants -/

/-- The invariants below hold right after reset (R50). The draw counter's value and the memory form are
the model's choice (assumption 1), and so are the parameters of the reset state (assumption 4). -/
def Obligations.ResetMeetsInvariants : Prop :=
  State.reset.StatusLegal ∧ State.reset.MemoryCanonical ∧ State.reset.DrawsFresh ∧
  State.reset.ArenaLegal ∧ State.reset.CountsLegal ∧ State.reset.AtReset ∧ State.reset.ResetHeld ∧
  State.reset.params.wf = true

/-- R26: every step keeps STATUS at its legal values. -/
def Obligations.StepKeepsStatusLegal : Prop :=
  ∀ s t : State, s.StatusLegal → step s = .next t → t.StatusLegal

/-- Every step keeps both byte memories in the model's canonical form (assumption 1). -/
def Obligations.StepKeepsMemoryCanonical : Prop :=
  ∀ s t : State, s.MemoryCanonical → step s = .next t → t.MemoryCanonical

/-- Every step keeps the draws of the memories fresh, a fact of the model's own counter (assumption
1). -/
def Obligations.StepKeepsDrawsFresh : Prop :=
  ∀ s t : State, s.DrawsFresh → step s = .next t → t.DrawsFresh

/-- R34, R41, R45, R145: every step keeps the queue empty between commands, and NODE_MEM valid exactly
below NODE_COUNT and all zero above. -/
def Obligations.StepKeepsArenaLegal : Prop :=
  ∀ s t : State, s.ArenaLegal → step s = .next t → t.ArenaLegal

/-- R31, R32: every step keeps LAST_BITS and NSYM in their ranges. -/
def Obligations.StepKeepsCountsLegal : Prop :=
  ∀ s t : State, s.CountsLegal → step s = .next t → t.CountsLegal

/-- R260: every step keeps the block at its reset values while `rst` is asserted. -/
def Obligations.StepKeepsResetHeld : Prop :=
  ∀ s t : State, s.ResetHeld → step s = .next t → t.ResetHeld
end

