-- ==== Sys2Proof/Laws/State.lean ====
section
/-! SUPPORT. What each state update leaves in each field: one lemma a field a named update, so that no
proof unfolds a record update; and the parts of an ENCODE under names of their own. -/

namespace Sys2Proof.Machine

/-- The tree an ENCODE builds. -/
abbrev encodeTree (s : State) : Tree := buildTree (countFreq (inputBytes s)) s.queue

/-- The code table an ENCODE generates. -/
abbrev encodeCodes (s : State) : Vector CodeEntry 256 := generateCodes (encodeTree s)

/-- The packer's state at the end of an ENCODE. -/
abbrev encodePacked (s : State) : Packer := packInput (encodeCodes s) (inputBytes s) s.outMem

@[simp] theorem succeed_eq (s : State) : s.succeed = s.complete 0 0 := rfl

@[simp] theorem raise_eq (e : ErrCode) (x : Word) (s : State) : s.raise e x = s.complete e.num x := rfl

/-! ### issue -/

@[simp] theorem issue_params (v : Word) (s : State) : (s.issue v).params = s.params := rfl
@[simp] theorem issue_rst (v : Word) (s : State) : (s.issue v).rst = s.rst := rfl
@[simp] theorem issue_phase (v : Word) (s : State) : (s.issue v).phase = .busy v := rfl
@[simp] theorem issue_done (v : Word) (s : State) : (s.issue v).done = false := rfl
@[simp] theorem issue_err (v : Word) (s : State) : (s.issue v).err = false := rfl
@[simp] theorem issue_errCode (v : Word) (s : State) : (s.issue v).errCode = 0 := rfl
@[simp] theorem issue_irqEn (v : Word) (s : State) : (s.issue v).irqEn = s.irqEn := rfl
@[simp] theorem issue_inLen (v : Word) (s : State) : (s.issue v).inLen = s.inLen := rfl
@[simp] theorem issue_bitLen (v : Word) (s : State) : (s.issue v).bitLen = s.bitLen := rfl
@[simp] theorem issue_outLen (v : Word) (s : State) : (s.issue v).outLen = s.outLen := rfl
@[simp] theorem issue_lastBits (v : Word) (s : State) : (s.issue v).lastBits = s.lastBits := rfl
@[simp] theorem issue_nsym (v : Word) (s : State) : (s.issue v).nsym = s.nsym := rfl
@[simp] theorem issue_maxCodeLen (v : Word) (s : State) : (s.issue v).maxCodeLen = s.maxCodeLen := rfl
@[simp] theorem issue_nodeCount (v : Word) (s : State) : (s.issue v).nodeCount = s.nodeCount := rfl
@[simp] theorem issue_root (v : Word) (s : State) : (s.issue v).root = s.root := rfl
@[simp] theorem issue_errInfo (v : Word) (s : State) : (s.issue v).errInfo = s.errInfo := rfl
@[simp] theorem issue_freq (v : Word) (s : State) : (s.issue v).freq = s.freq := rfl
@[simp] theorem issue_node (v : Word) (s : State) : (s.issue v).node = s.node := rfl
@[simp] theorem issue_code (v : Word) (s : State) : (s.issue v).code = s.code := rfl
@[simp] theorem issue_inMem (v : Word) (s : State) : (s.issue v).inMem = s.inMem := rfl
@[simp] theorem issue_outMem (v : Word) (s : State) : (s.issue v).outMem = s.outMem := rfl
@[simp] theorem issue_queue (v : Word) (s : State) : (s.issue v).queue = s.queue := rfl
@[simp] theorem issue_draws (v : Word) (s : State) : (s.issue v).draws = s.draws := rfl
@[simp] theorem issue_host (v : Word) (s : State) : (s.issue v).host = s.host := rfl
@[simp] theorem issue_turns (v : Word) (s : State) : (s.issue v).turns = s.turns := rfl

/-! ### complete -/

@[simp] theorem complete_params (c : BitVec 4) (x : Word) (s : State) : (s.complete c x).params = s.params := rfl
@[simp] theorem complete_rst (c : BitVec 4) (x : Word) (s : State) : (s.complete c x).rst = s.rst := rfl
@[simp] theorem complete_phase (c : BitVec 4) (x : Word) (s : State) : (s.complete c x).phase = .idle := rfl
@[simp] theorem complete_done (c : BitVec 4) (x : Word) (s : State) : (s.complete c x).done = true := rfl
@[simp] theorem complete_err (c : BitVec 4) (x : Word) (s : State) : (s.complete c x).err = (c != 0) := rfl
@[simp] theorem complete_errCode (c : BitVec 4) (x : Word) (s : State) : (s.complete c x).errCode = c := rfl
@[simp] theorem complete_irqEn (c : BitVec 4) (x : Word) (s : State) : (s.complete c x).irqEn = s.irqEn := rfl
@[simp] theorem complete_inLen (c : BitVec 4) (x : Word) (s : State) : (s.complete c x).inLen = s.inLen := rfl
@[simp] theorem complete_bitLen (c : BitVec 4) (x : Word) (s : State) : (s.complete c x).bitLen = s.bitLen := rfl
@[simp] theorem complete_outLen (c : BitVec 4) (x : Word) (s : State) : (s.complete c x).outLen = s.outLen := rfl
@[simp] theorem complete_lastBits (c : BitVec 4) (x : Word) (s : State) : (s.complete c x).lastBits = s.lastBits := rfl
@[simp] theorem complete_nsym (c : BitVec 4) (x : Word) (s : State) : (s.complete c x).nsym = s.nsym := rfl
@[simp] theorem complete_maxCodeLen (c : BitVec 4) (x : Word) (s : State) : (s.complete c x).maxCodeLen = s.maxCodeLen := rfl
@[simp] theorem complete_nodeCount (c : BitVec 4) (x : Word) (s : State) : (s.complete c x).nodeCount = s.nodeCount := rfl
@[simp] theorem complete_root (c : BitVec 4) (x : Word) (s : State) : (s.complete c x).root = s.root := rfl
@[simp] theorem complete_errInfo (c : BitVec 4) (x : Word) (s : State) : (s.complete c x).errInfo = x := rfl
@[simp] theorem complete_freq (c : BitVec 4) (x : Word) (s : State) : (s.complete c x).freq = s.freq := rfl
@[simp] theorem complete_node (c : BitVec 4) (x : Word) (s : State) : (s.complete c x).node = s.node := rfl
@[simp] theorem complete_code (c : BitVec 4) (x : Word) (s : State) : (s.complete c x).code = s.code := rfl
@[simp] theorem complete_inMem (c : BitVec 4) (x : Word) (s : State) : (s.complete c x).inMem = s.inMem := rfl
@[simp] theorem complete_outMem (c : BitVec 4) (x : Word) (s : State) : (s.complete c x).outMem = s.outMem := rfl
@[simp] theorem complete_queue (c : BitVec 4) (x : Word) (s : State) : (s.complete c x).queue = s.queue := rfl
@[simp] theorem complete_draws (c : BitVec 4) (x : Word) (s : State) : (s.complete c x).draws = s.draws := rfl
@[simp] theorem complete_host (c : BitVec 4) (x : Word) (s : State) : (s.complete c x).host = s.host := rfl
@[simp] theorem complete_turns (c : BitVec 4) (x : Word) (s : State) : (s.complete c x).turns = s.turns := rfl

/-! ### writeStatus -/

@[simp] theorem writeStatus_params (v : Word) (s : State) : (s.writeStatus v).params = s.params := rfl
@[simp] theorem writeStatus_rst (v : Word) (s : State) : (s.writeStatus v).rst = s.rst := rfl
@[simp] theorem writeStatus_phase (v : Word) (s : State) : (s.writeStatus v).phase = s.phase := rfl
@[simp] theorem writeStatus_done (v : Word) (s : State) : (s.writeStatus v).done = (s.done && !v.getLsbD 1) := rfl
@[simp] theorem writeStatus_err (v : Word) (s : State) : (s.writeStatus v).err = s.err := rfl
@[simp] theorem writeStatus_errCode (v : Word) (s : State) : (s.writeStatus v).errCode = s.errCode := rfl
@[simp] theorem writeStatus_irqEn (v : Word) (s : State) : (s.writeStatus v).irqEn = s.irqEn := rfl
@[simp] theorem writeStatus_inLen (v : Word) (s : State) : (s.writeStatus v).inLen = s.inLen := rfl
@[simp] theorem writeStatus_bitLen (v : Word) (s : State) : (s.writeStatus v).bitLen = s.bitLen := rfl
@[simp] theorem writeStatus_outLen (v : Word) (s : State) : (s.writeStatus v).outLen = s.outLen := rfl
@[simp] theorem writeStatus_lastBits (v : Word) (s : State) : (s.writeStatus v).lastBits = s.lastBits := rfl
@[simp] theorem writeStatus_nsym (v : Word) (s : State) : (s.writeStatus v).nsym = s.nsym := rfl
@[simp] theorem writeStatus_maxCodeLen (v : Word) (s : State) : (s.writeStatus v).maxCodeLen = s.maxCodeLen := rfl
@[simp] theorem writeStatus_nodeCount (v : Word) (s : State) : (s.writeStatus v).nodeCount = s.nodeCount := rfl
@[simp] theorem writeStatus_root (v : Word) (s : State) : (s.writeStatus v).root = s.root := rfl
@[simp] theorem writeStatus_errInfo (v : Word) (s : State) : (s.writeStatus v).errInfo = s.errInfo := rfl
@[simp] theorem writeStatus_freq (v : Word) (s : State) : (s.writeStatus v).freq = s.freq := rfl
@[simp] theorem writeStatus_node (v : Word) (s : State) : (s.writeStatus v).node = s.node := rfl
@[simp] theorem writeStatus_code (v : Word) (s : State) : (s.writeStatus v).code = s.code := rfl
@[simp] theorem writeStatus_inMem (v : Word) (s : State) : (s.writeStatus v).inMem = s.inMem := rfl
@[simp] theorem writeStatus_outMem (v : Word) (s : State) : (s.writeStatus v).outMem = s.outMem := rfl
@[simp] theorem writeStatus_queue (v : Word) (s : State) : (s.writeStatus v).queue = s.queue := rfl
@[simp] theorem writeStatus_draws (v : Word) (s : State) : (s.writeStatus v).draws = s.draws := rfl
@[simp] theorem writeStatus_host (v : Word) (s : State) : (s.writeStatus v).host = s.host := rfl
@[simp] theorem writeStatus_turns (v : Word) (s : State) : (s.writeStatus v).turns = s.turns := rfl

/-! ### applyReset -/

@[simp] theorem applyReset_params (s : State) : (s.applyReset).params = s.params := rfl
@[simp] theorem applyReset_rst (s : State) : (s.applyReset).rst = s.rst := rfl
@[simp] theorem applyReset_phase (s : State) : (s.applyReset).phase = .idle := rfl
@[simp] theorem applyReset_done (s : State) : (s.applyReset).done = false := rfl
@[simp] theorem applyReset_err (s : State) : (s.applyReset).err = false := rfl
@[simp] theorem applyReset_errCode (s : State) : (s.applyReset).errCode = 0 := rfl
@[simp] theorem applyReset_irqEn (s : State) : (s.applyReset).irqEn = false := rfl
@[simp] theorem applyReset_inLen (s : State) : (s.applyReset).inLen = 0 := rfl
@[simp] theorem applyReset_bitLen (s : State) : (s.applyReset).bitLen = 0 := rfl
@[simp] theorem applyReset_outLen (s : State) : (s.applyReset).outLen = 0 := rfl
@[simp] theorem applyReset_lastBits (s : State) : (s.applyReset).lastBits = 0 := rfl
@[simp] theorem applyReset_nsym (s : State) : (s.applyReset).nsym = 0 := rfl
@[simp] theorem applyReset_maxCodeLen (s : State) : (s.applyReset).maxCodeLen = 0 := rfl
@[simp] theorem applyReset_nodeCount (s : State) : (s.applyReset).nodeCount = 0 := rfl
@[simp] theorem applyReset_root (s : State) : (s.applyReset).root = Config.nil := rfl
@[simp] theorem applyReset_errInfo (s : State) : (s.applyReset).errInfo = 0 := rfl
@[simp] theorem applyReset_freq (s : State) : (s.applyReset).freq = Vector.replicate 256 0 := rfl
@[simp] theorem applyReset_node (s : State) : (s.applyReset).node = Vector.replicate 511 Node.blank := rfl
@[simp] theorem applyReset_code (s : State) : (s.applyReset).code = Vector.replicate 256 CodeEntry.blank := rfl
@[simp] theorem applyReset_inMem (s : State) : (s.applyReset).inMem = ByteMem.any s.draws := rfl
@[simp] theorem applyReset_outMem (s : State) : (s.applyReset).outMem = ByteMem.any s.draws := rfl
@[simp] theorem applyReset_queue (s : State) : (s.applyReset).queue = [] := rfl
@[simp] theorem applyReset_draws (s : State) : (s.applyReset).draws = s.draws + 1 := rfl
@[simp] theorem applyReset_host (s : State) : (s.applyReset).host = s.host := rfl
@[simp] theorem applyReset_turns (s : State) : (s.applyReset).turns = s.turns := rfl

/-! ### withCommand -/

@[simp] theorem withCommand_params (v : Word) (s : State) : (s.withCommand v).params = s.params := rfl
@[simp] theorem withCommand_rst (v : Word) (s : State) : (s.withCommand v).rst = false := rfl
@[simp] theorem withCommand_phase (v : Word) (s : State) : (s.withCommand v).phase = .busy v := rfl
@[simp] theorem withCommand_done (v : Word) (s : State) : (s.withCommand v).done = false := rfl
@[simp] theorem withCommand_err (v : Word) (s : State) : (s.withCommand v).err = false := rfl
@[simp] theorem withCommand_errCode (v : Word) (s : State) : (s.withCommand v).errCode = 0 := rfl
@[simp] theorem withCommand_irqEn (v : Word) (s : State) : (s.withCommand v).irqEn = s.irqEn := rfl
@[simp] theorem withCommand_inLen (v : Word) (s : State) : (s.withCommand v).inLen = s.inLen := rfl
@[simp] theorem withCommand_bitLen (v : Word) (s : State) : (s.withCommand v).bitLen = s.bitLen := rfl
@[simp] theorem withCommand_outLen (v : Word) (s : State) : (s.withCommand v).outLen = s.outLen := rfl
@[simp] theorem withCommand_lastBits (v : Word) (s : State) : (s.withCommand v).lastBits = s.lastBits := rfl
@[simp] theorem withCommand_nsym (v : Word) (s : State) : (s.withCommand v).nsym = s.nsym := rfl
@[simp] theorem withCommand_maxCodeLen (v : Word) (s : State) : (s.withCommand v).maxCodeLen = s.maxCodeLen := rfl
@[simp] theorem withCommand_nodeCount (v : Word) (s : State) : (s.withCommand v).nodeCount = s.nodeCount := rfl
@[simp] theorem withCommand_root (v : Word) (s : State) : (s.withCommand v).root = s.root := rfl
@[simp] theorem withCommand_errInfo (v : Word) (s : State) : (s.withCommand v).errInfo = s.errInfo := rfl
@[simp] theorem withCommand_freq (v : Word) (s : State) : (s.withCommand v).freq = s.freq := rfl
@[simp] theorem withCommand_node (v : Word) (s : State) : (s.withCommand v).node = s.node := rfl
@[simp] theorem withCommand_code (v : Word) (s : State) : (s.withCommand v).code = s.code := rfl
@[simp] theorem withCommand_inMem (v : Word) (s : State) : (s.withCommand v).inMem = s.inMem := rfl
@[simp] theorem withCommand_outMem (v : Word) (s : State) : (s.withCommand v).outMem = s.outMem := rfl
@[simp] theorem withCommand_queue (v : Word) (s : State) : (s.withCommand v).queue = s.queue := rfl
@[simp] theorem withCommand_draws (v : Word) (s : State) : (s.withCommand v).draws = s.draws := rfl
@[simp] theorem withCommand_host (v : Word) (s : State) : (s.withCommand v).host = s.host := rfl
@[simp] theorem withCommand_turns (v : Word) (s : State) : (s.withCommand v).turns = [] := rfl

/-! ### clearRun -/

@[simp] theorem clearRun_params (s : State) : (clearRun s).params = s.params := rfl
@[simp] theorem clearRun_rst (s : State) : (clearRun s).rst = s.rst := rfl
@[simp] theorem clearRun_phase (s : State) : (clearRun s).phase = s.phase := rfl
@[simp] theorem clearRun_done (s : State) : (clearRun s).done = s.done := rfl
@[simp] theorem clearRun_err (s : State) : (clearRun s).err = s.err := rfl
@[simp] theorem clearRun_errCode (s : State) : (clearRun s).errCode = s.errCode := rfl
@[simp] theorem clearRun_irqEn (s : State) : (clearRun s).irqEn = s.irqEn := rfl
@[simp] theorem clearRun_inLen (s : State) : (clearRun s).inLen = s.inLen := rfl
@[simp] theorem clearRun_bitLen (s : State) : (clearRun s).bitLen = s.bitLen := rfl
@[simp] theorem clearRun_outLen (s : State) : (clearRun s).outLen = 0 := rfl
@[simp] theorem clearRun_lastBits (s : State) : (clearRun s).lastBits = 0 := rfl
@[simp] theorem clearRun_nsym (s : State) : (clearRun s).nsym = 0 := rfl
@[simp] theorem clearRun_maxCodeLen (s : State) : (clearRun s).maxCodeLen = 0 := rfl
@[simp] theorem clearRun_nodeCount (s : State) : (clearRun s).nodeCount = 0 := rfl
@[simp] theorem clearRun_root (s : State) : (clearRun s).root = Config.nil := rfl
@[simp] theorem clearRun_errInfo (s : State) : (clearRun s).errInfo = s.errInfo := rfl
@[simp] theorem clearRun_freq (s : State) : (clearRun s).freq = Vector.replicate 256 0 := rfl
@[simp] theorem clearRun_node (s : State) : (clearRun s).node = Vector.replicate 511 Node.blank := rfl
@[simp] theorem clearRun_code (s : State) : (clearRun s).code = emptyCodes := rfl
@[simp] theorem clearRun_inMem (s : State) : (clearRun s).inMem = s.inMem := rfl
@[simp] theorem clearRun_outMem (s : State) : (clearRun s).outMem = s.outMem := rfl
@[simp] theorem clearRun_queue (s : State) : (clearRun s).queue = s.queue := rfl
@[simp] theorem clearRun_draws (s : State) : (clearRun s).draws = s.draws := rfl
@[simp] theorem clearRun_host (s : State) : (clearRun s).host = s.host := rfl
@[simp] theorem clearRun_turns (s : State) : (clearRun s).turns = s.turns := rfl

/-! ### decodeTableRegs -/

@[simp] theorem decodeTableRegs_params (s : State) : (decodeTableRegs s).params = s.params := rfl
@[simp] theorem decodeTableRegs_rst (s : State) : (decodeTableRegs s).rst = s.rst := rfl
@[simp] theorem decodeTableRegs_phase (s : State) : (decodeTableRegs s).phase = s.phase := rfl
@[simp] theorem decodeTableRegs_done (s : State) : (decodeTableRegs s).done = s.done := rfl
@[simp] theorem decodeTableRegs_err (s : State) : (decodeTableRegs s).err = s.err := rfl
@[simp] theorem decodeTableRegs_errCode (s : State) : (decodeTableRegs s).errCode = s.errCode := rfl
@[simp] theorem decodeTableRegs_irqEn (s : State) : (decodeTableRegs s).irqEn = s.irqEn := rfl
@[simp] theorem decodeTableRegs_inLen (s : State) : (decodeTableRegs s).inLen = s.inLen := rfl
@[simp] theorem decodeTableRegs_bitLen (s : State) : (decodeTableRegs s).bitLen = s.bitLen := rfl
@[simp] theorem decodeTableRegs_outLen (s : State) : (decodeTableRegs s).outLen = s.outLen := rfl
@[simp] theorem decodeTableRegs_lastBits (s : State) : (decodeTableRegs s).lastBits = s.lastBits := rfl
@[simp] theorem decodeTableRegs_nsym (s : State) : (decodeTableRegs s).nsym = BitVec.ofNat 9 (readTable s.code).length := rfl
@[simp] theorem decodeTableRegs_maxCodeLen (s : State) : (decodeTableRegs s).maxCodeLen = BitVec.ofNat 8 (maxLen s.code) := rfl
@[simp] theorem decodeTableRegs_nodeCount (s : State) : (decodeTableRegs s).nodeCount = s.nodeCount := rfl
@[simp] theorem decodeTableRegs_root (s : State) : (decodeTableRegs s).root = s.root := rfl
@[simp] theorem decodeTableRegs_errInfo (s : State) : (decodeTableRegs s).errInfo = s.errInfo := rfl
@[simp] theorem decodeTableRegs_freq (s : State) : (decodeTableRegs s).freq = s.freq := rfl
@[simp] theorem decodeTableRegs_node (s : State) : (decodeTableRegs s).node = s.node := rfl
@[simp] theorem decodeTableRegs_code (s : State) : (decodeTableRegs s).code = s.code := rfl
@[simp] theorem decodeTableRegs_inMem (s : State) : (decodeTableRegs s).inMem = s.inMem := rfl
@[simp] theorem decodeTableRegs_outMem (s : State) : (decodeTableRegs s).outMem = s.outMem := rfl
@[simp] theorem decodeTableRegs_queue (s : State) : (decodeTableRegs s).queue = s.queue := rfl
@[simp] theorem decodeTableRegs_draws (s : State) : (decodeTableRegs s).draws = s.draws := rfl
@[simp] theorem decodeTableRegs_host (s : State) : (decodeTableRegs s).host = s.host := rfl
@[simp] theorem decodeTableRegs_turns (s : State) : (decodeTableRegs s).turns = s.turns := rfl

/-! ### decodeResult -/

@[simp] theorem decodeResult_params (n : Nat) (out : ByteMem) (s : State) : (decodeResult n out s).params = s.params := rfl
@[simp] theorem decodeResult_rst (n : Nat) (out : ByteMem) (s : State) : (decodeResult n out s).rst = s.rst := rfl
@[simp] theorem decodeResult_phase (n : Nat) (out : ByteMem) (s : State) : (decodeResult n out s).phase = s.phase := rfl
@[simp] theorem decodeResult_done (n : Nat) (out : ByteMem) (s : State) : (decodeResult n out s).done = s.done := rfl
@[simp] theorem decodeResult_err (n : Nat) (out : ByteMem) (s : State) : (decodeResult n out s).err = s.err := rfl
@[simp] theorem decodeResult_errCode (n : Nat) (out : ByteMem) (s : State) : (decodeResult n out s).errCode = s.errCode := rfl
@[simp] theorem decodeResult_irqEn (n : Nat) (out : ByteMem) (s : State) : (decodeResult n out s).irqEn = s.irqEn := rfl
@[simp] theorem decodeResult_inLen (n : Nat) (out : ByteMem) (s : State) : (decodeResult n out s).inLen = s.inLen := rfl
@[simp] theorem decodeResult_bitLen (n : Nat) (out : ByteMem) (s : State) : (decodeResult n out s).bitLen = s.bitLen := rfl
@[simp] theorem decodeResult_outLen (n : Nat) (out : ByteMem) (s : State) : (decodeResult n out s).outLen = BitVec.ofNat 32 n := rfl
@[simp] theorem decodeResult_lastBits (n : Nat) (out : ByteMem) (s : State) : (decodeResult n out s).lastBits = (if 0 < n then 8 else 0) := rfl
@[simp] theorem decodeResult_nsym (n : Nat) (out : ByteMem) (s : State) : (decodeResult n out s).nsym = s.nsym := rfl
@[simp] theorem decodeResult_maxCodeLen (n : Nat) (out : ByteMem) (s : State) : (decodeResult n out s).maxCodeLen = s.maxCodeLen := rfl
@[simp] theorem decodeResult_nodeCount (n : Nat) (out : ByteMem) (s : State) : (decodeResult n out s).nodeCount = s.nodeCount := rfl
@[simp] theorem decodeResult_root (n : Nat) (out : ByteMem) (s : State) : (decodeResult n out s).root = s.root := rfl
@[simp] theorem decodeResult_errInfo (n : Nat) (out : ByteMem) (s : State) : (decodeResult n out s).errInfo = s.errInfo := rfl
@[simp] theorem decodeResult_freq (n : Nat) (out : ByteMem) (s : State) : (decodeResult n out s).freq = s.freq := rfl
@[simp] theorem decodeResult_node (n : Nat) (out : ByteMem) (s : State) : (decodeResult n out s).node = s.node := rfl
@[simp] theorem decodeResult_code (n : Nat) (out : ByteMem) (s : State) : (decodeResult n out s).code = s.code := rfl
@[simp] theorem decodeResult_inMem (n : Nat) (out : ByteMem) (s : State) : (decodeResult n out s).inMem = s.inMem := rfl
@[simp] theorem decodeResult_outMem (n : Nat) (out : ByteMem) (s : State) : (decodeResult n out s).outMem = out := rfl
@[simp] theorem decodeResult_queue (n : Nat) (out : ByteMem) (s : State) : (decodeResult n out s).queue = s.queue := rfl
@[simp] theorem decodeResult_draws (n : Nat) (out : ByteMem) (s : State) : (decodeResult n out s).draws = s.draws := rfl
@[simp] theorem decodeResult_host (n : Nat) (out : ByteMem) (s : State) : (decodeResult n out s).host = s.host := rfl
@[simp] theorem decodeResult_turns (n : Nat) (out : ByteMem) (s : State) : (decodeResult n out s).turns = s.turns := rfl

/-! ### decodeFailure -/

@[simp] theorem decodeFailure_params (s : State) : (decodeFailure s).params = s.params := rfl
@[simp] theorem decodeFailure_rst (s : State) : (decodeFailure s).rst = s.rst := rfl
@[simp] theorem decodeFailure_phase (s : State) : (decodeFailure s).phase = s.phase := rfl
@[simp] theorem decodeFailure_done (s : State) : (decodeFailure s).done = s.done := rfl
@[simp] theorem decodeFailure_err (s : State) : (decodeFailure s).err = s.err := rfl
@[simp] theorem decodeFailure_errCode (s : State) : (decodeFailure s).errCode = s.errCode := rfl
@[simp] theorem decodeFailure_irqEn (s : State) : (decodeFailure s).irqEn = s.irqEn := rfl
@[simp] theorem decodeFailure_inLen (s : State) : (decodeFailure s).inLen = s.inLen := rfl
@[simp] theorem decodeFailure_bitLen (s : State) : (decodeFailure s).bitLen = s.bitLen := rfl
@[simp] theorem decodeFailure_outLen (s : State) : (decodeFailure s).outLen = 0 := rfl
@[simp] theorem decodeFailure_lastBits (s : State) : (decodeFailure s).lastBits = 0 := rfl
@[simp] theorem decodeFailure_nsym (s : State) : (decodeFailure s).nsym = s.nsym := rfl
@[simp] theorem decodeFailure_maxCodeLen (s : State) : (decodeFailure s).maxCodeLen = s.maxCodeLen := rfl
@[simp] theorem decodeFailure_nodeCount (s : State) : (decodeFailure s).nodeCount = s.nodeCount := rfl
@[simp] theorem decodeFailure_root (s : State) : (decodeFailure s).root = s.root := rfl
@[simp] theorem decodeFailure_errInfo (s : State) : (decodeFailure s).errInfo = s.errInfo := rfl
@[simp] theorem decodeFailure_freq (s : State) : (decodeFailure s).freq = s.freq := rfl
@[simp] theorem decodeFailure_node (s : State) : (decodeFailure s).node = s.node := rfl
@[simp] theorem decodeFailure_code (s : State) : (decodeFailure s).code = s.code := rfl
@[simp] theorem decodeFailure_inMem (s : State) : (decodeFailure s).inMem = s.inMem := rfl
@[simp] theorem decodeFailure_outMem (s : State) : (decodeFailure s).outMem = ByteMem.any s.draws := rfl
@[simp] theorem decodeFailure_queue (s : State) : (decodeFailure s).queue = s.queue := rfl
@[simp] theorem decodeFailure_draws (s : State) : (decodeFailure s).draws = s.draws + 1 := rfl
@[simp] theorem decodeFailure_host (s : State) : (decodeFailure s).host = s.host := rfl
@[simp] theorem decodeFailure_turns (s : State) : (decodeFailure s).turns = s.turns := rfl

/-! ### encodeRun -/

@[simp] theorem encodeRun_params (s : State) : (encodeRun s).params = s.params := rfl
@[simp] theorem encodeRun_rst (s : State) : (encodeRun s).rst = s.rst := rfl
@[simp] theorem encodeRun_phase (s : State) : (encodeRun s).phase = s.phase := rfl
@[simp] theorem encodeRun_done (s : State) : (encodeRun s).done = s.done := rfl
@[simp] theorem encodeRun_err (s : State) : (encodeRun s).err = s.err := rfl
@[simp] theorem encodeRun_errCode (s : State) : (encodeRun s).errCode = s.errCode := rfl
@[simp] theorem encodeRun_irqEn (s : State) : (encodeRun s).irqEn = s.irqEn := rfl
@[simp] theorem encodeRun_inLen (s : State) : (encodeRun s).inLen = s.inLen := rfl
@[simp] theorem encodeRun_bitLen (s : State) : (encodeRun s).bitLen = BitVec.ofNat 32 (encodePacked s).bp := rfl
@[simp] theorem encodeRun_outLen (s : State) : (encodeRun s).outLen = BitVec.ofNat 32 (((encodePacked s).bp + 7) / 8) := rfl
@[simp] theorem encodeRun_lastBits (s : State) : (encodeRun s).lastBits = BitVec.ofNat 4 (lastBitsOf (encodePacked s).bp) := rfl
@[simp] theorem encodeRun_nsym (s : State) : (encodeRun s).nsym = BitVec.ofNat 9 (distinctCount (countFreq (inputBytes s))) := rfl
@[simp] theorem encodeRun_maxCodeLen (s : State) : (encodeRun s).maxCodeLen = BitVec.ofNat 8 (maxLen (encodeCodes s)) := rfl
@[simp] theorem encodeRun_nodeCount (s : State) : (encodeRun s).nodeCount = (encodeTree s).count := rfl
@[simp] theorem encodeRun_root (s : State) : (encodeRun s).root = (encodeTree s).root := rfl
@[simp] theorem encodeRun_errInfo (s : State) : (encodeRun s).errInfo = s.errInfo := rfl
@[simp] theorem encodeRun_freq (s : State) : (encodeRun s).freq = countFreq (inputBytes s) := rfl
@[simp] theorem encodeRun_node (s : State) : (encodeRun s).node = (encodeTree s).node := rfl
@[simp] theorem encodeRun_code (s : State) : (encodeRun s).code = encodeCodes s := rfl
@[simp] theorem encodeRun_inMem (s : State) : (encodeRun s).inMem = s.inMem := rfl
@[simp] theorem encodeRun_outMem (s : State) : (encodeRun s).outMem = (encodePacked s).mem := rfl
@[simp] theorem encodeRun_queue (s : State) : (encodeRun s).queue = (encodeTree s).queue := rfl
@[simp] theorem encodeRun_draws (s : State) : (encodeRun s).draws = s.draws := rfl
@[simp] theorem encodeRun_host (s : State) : (encodeRun s).host = s.host := rfl
@[simp] theorem encodeRun_turns (s : State) : (encodeRun s).turns = s.turns := rfl

end Sys2Proof.Machine
end

