-- ==== Sys2Proof/Laws/Memory.lean ====
section
/-! SUPPORT. The laws of keyed lists and byte memories: a read after a write, and every memory operation
keeps the canonical form. -/

namespace Sys2Proof.Machine

section KeyedLists
variable {α : Type} (l : List (Nat × α)) (a b : Nat) (x : α)

@[simp] theorem lookupKey_insertKey_same : lookupKey (insertKey l a x) a = some x := by
  induction l with
  | nil => simp [insertKey, lookupKey]
  | cons h r ih =>
    obtain ⟨k, v⟩ := h
    simp only [insertKey]
    split
    · simp [lookupKey]
    · split
      · simp [lookupKey]
      · simp [lookupKey, *]

theorem lookupKey_insertKey_other (h : b ≠ a) :
    lookupKey (insertKey l a x) b = lookupKey l b := by
  induction l with
  | nil => simp [insertKey, lookupKey, h]
  | cons c r ih =>
    obtain ⟨k, v⟩ := c
    simp only [insertKey]
    split
    · simp [lookupKey, h]
    · split
      · subst a; simp [lookupKey, h]
      · simp [lookupKey, ih]

/-- Every key of a list after an insertion was there or is the inserted one. -/
theorem mem_insertKey {y : Nat × α} (h : y ∈ insertKey l a x) : y.1 = a ∨ y ∈ l := by
  induction l with
  | nil => simp [insertKey] at h; simp [h]
  | cons c r ih =>
    obtain ⟨k, v⟩ := c
    simp only [insertKey] at h
    split at h
    · rcases List.mem_cons.1 h with rfl | h <;> simp_all
    · split at h
      · rcases List.mem_cons.1 h with rfl | h <;> simp_all
      · rcases List.mem_cons.1 h with rfl | h
        · simp
        · rcases ih h with h | h <;> simp [h]

theorem keysRise_insertKey (h : KeysRise l) : KeysRise (insertKey l a x) := by
  induction l with
  | nil => simp [insertKey, KeysRise]
  | cons c r ih =>
    obtain ⟨k, v⟩ := c
    obtain ⟨hk, hr⟩ := List.pairwise_cons.1 h
    simp only [insertKey]
    split
    · rename_i hlt
      refine List.pairwise_cons.2 ⟨fun y hy => ?_, h⟩
      rcases List.mem_cons.1 hy with rfl | hy
      · exact hlt
      · exact lt_trans hlt (hk y hy)
    · split
      · rename_i heq
        exact List.pairwise_cons.2 ⟨fun y hy => heq ▸ hk y hy, hr⟩
      · refine List.pairwise_cons.2 ⟨fun y hy => ?_, ih hr⟩
        rcases mem_insertKey r a x hy with h' | h'
        · show k < y.1; omega
        · exact hk y h'

end KeyedLists

/-! ### Byte memories -/

@[simp] theorem ByteMem.set_stamp (m : ByteMem) (i : Nat) (b : Byte) : (m.set i b).stamp = m.stamp := rfl

@[simp] theorem ByteMem.any_cells (n : Nat) : (ByteMem.any n).cells = [] := rfl

@[simp] theorem ByteMem.any_stamp (n : Nat) : (ByteMem.any n).stamp = n := rfl

@[simp] theorem ByteMem.get?_set_same (m : ByteMem) (i : Nat) (b : Byte) :
    (m.set i b).get? i = some b := lookupKey_insertKey_same _ _ _

theorem ByteMem.get?_set_other (m : ByteMem) {i j : Nat} (b : Byte) (h : j ≠ i) :
    (m.set i b).get? j = m.get? j := lookupKey_insertKey_other _ _ _ _ h

@[simp] theorem inByte_set_same (m : ByteMem) (i : Nat) (b : Byte) : inByte (m.set i b) i = b := by
  simp [inByte]

theorem inByte_set_other (m : ByteMem) {i j : Nat} (b : Byte) (h : j ≠ i) :
    inByte (m.set i b) j = inByte m j := by
  simp [inByte, ByteMem.get?_set_other m b h]

@[simp] theorem outByte_set_same (m : ByteMem) (i : Nat) (b : Byte) : outByte (m.set i b) i = b := by
  simp [outByte]

theorem outByte_set_other (m : ByteMem) {i j : Nat} (b : Byte) (h : j ≠ i) :
    outByte (m.set i b) j = outByte m j := by
  simp [outByte, ByteMem.get?_set_other m b h]

theorem ByteMem.any_wf (n : Nat) : (ByteMem.any n).wf := List.Pairwise.nil

theorem ByteMem.set_wf {m : ByteMem} (h : m.wf) (i : Nat) (b : Byte) : (m.set i b).wf :=
  keysRise_insertKey _ _ _ h

theorem ByteMem.setWord_wf {m : ByteMem} (h : m.wf) (w : Nat) (v : Word) : (m.setWord w v).wf :=
  ByteMem.set_wf (ByteMem.set_wf (ByteMem.set_wf (ByteMem.set_wf h _ _) _ _) _ _) _ _

theorem putBit_wf {m : ByteMem} (h : m.wf) (bp : Nat) (b : Bool) : (putBit m bp b).wf := by
  unfold putBit
  split
  · exact ByteMem.set_wf (ByteMem.set_wf h _ _) _ _
  · exact ByteMem.set_wf h _ _

theorem packCode_wf (bits : BitString) {p : Packer} (h : p.mem.wf) : (packCode p bits).mem.wf := by
  induction bits generalizing p with
  | nil => exact h
  | cons b r ih => exact ih (putBit_wf h _ _)

theorem packInput_wf (t : Vector CodeEntry 256) (input : List Byte) {m : ByteMem} (h : m.wf) :
    (packInput t input m).mem.wf := by
  suffices ∀ p : Packer, p.mem.wf →
      (input.foldl (fun p s => packCode p (codeAt t s.toNat).code) p).mem.wf from this _ h
  induction input with
  | nil => exact fun _ hp => hp
  | cons s r ih => exact fun p hp => ih _ (packCode_wf _ hp)

theorem scan_wf (x : ScanInput) (rest pos : Nat) (cand : BitString) (n : Nat) {out : ByteMem}
    (h : out.wf) {n' : Nat} {out' : ByteMem} (hs : scan x rest pos cand n out = .done n' out') :
    out'.wf := by
  induction rest generalizing pos cand n out with
  | zero => simp only [scan, ScanEnd.done.injEq] at hs; exact hs.2 ▸ h
  | succ r ih =>
    simp only [scan] at hs
    split at hs
    · split at hs
      · cases hs
      · exact ih _ _ _ (ByteMem.set_wf h _ _) hs
    · split at hs
      · cases hs
      · split at hs
        · cases hs
        · exact ih _ _ _ h hs

/-! ### Words in byte memories -/

/-- A word is the word of its four bytes (R76). -/
theorem wordOfBytes_byteOfWord (v : Word) :
    wordOfBytes (byteOfWord v 0) (byteOfWord v 1) (byteOfWord v 2) (byteOfWord v 3) = v := by
  apply BitVec.eq_of_getLsbD_eq
  intro i hi
  simp only [wordOfBytes, byteOfWord, BitVec.getLsbD_append, BitVec.getLsbD_extractLsb']
  have h : i < 32 := hi
  rcases (by omega : i < 8 ∨ (8 ≤ i ∧ i < 16) ∨ (16 ≤ i ∧ i < 24) ∨ (24 ≤ i ∧ i < 32)) with
    h | h | h | h
  · simp [h]
  · simp [show ¬ i < 8 by omega, show i - 8 < 8 by omega, show 8 + (i - 8) = i by omega]
  · simp [show ¬ i < 8 by omega, show ¬ i - 8 < 8 by omega, show i - 8 - 8 < 8 by omega,
      show 16 + (i - 8 - 8) = i by omega]
  · simp [show ¬ i < 8 by omega, show ¬ i - 8 < 8 by omega, show ¬ i - 8 - 8 < 8 by omega,
      show i - 8 - 8 - 8 < 8 by omega, show 24 + (i - 8 - 8 - 8) = i by omega]

end Sys2Proof.Machine
end

