-- ==== Sys2Proof/Laws/Codes.lean ====
section
/-! SUPPORT. The laws of the tables: what a stored code reads back as, and what a host word of a code
entry holds. -/

namespace Sys2Proof.Machine

/-- BITS[j] of a stored bit string is its j-th bit, and 0 beyond it (R165). -/
theorem bitsOf_getMsbD (p : BitString) (hp : p.length ≤ 256) (j : Nat) :
    (bitsOf p).getMsbD j = p.getD j false := by
  induction p generalizing j with
  | nil => simp [bitsOf]
  | cons b r ih =>
    have hr : r.length + 1 ≤ 256 := hp
    have tail := ih (by omega)
    simp only [bitsOf, BitVec.getMsbD_or, BitVec.getMsbD_ushiftRight]
    cases j with
    | zero => cases b <;> simp [BitVec.getMsbD]
    | succ k =>
      have hk : (if b then 1#256 <<< 255 else 0#256).getMsbD (k + 1) = false := by
        cases b
        · simp
        · simp only [if_true, BitVec.getMsbD]
          rw [BitVec.getLsbD_shiftLeft]
          simp; omega
      rw [hk]
      by_cases h : k + 1 < 256
      · simp [h, tail k]
      · have : r[k]? = none := List.getElem?_eq_none (by omega)
        simp [h, this]

@[simp] theorem store_len (p : BitString) (hp : p.length ≤ 255) :
    (CodeEntry.store p).len.toNat = p.length := by
  simp [CodeEntry.store]; omega

/-- The code of a stored entry is the bit string stored (R105, R165). -/
theorem store_code (p : BitString) (hp : p.length ≤ 255) : (CodeEntry.store p).code = p := by
  apply List.ext_getElem
  · simp [CodeEntry.code, hp]
  · intro j h1 h2
    have := bitsOf_getMsbD p (by omega) j
    simp [CodeEntry.code, CodeEntry.bit, CodeEntry.store, this, List.getD_eq_getElem?_getD, h2]

@[simp] theorem code_length (e : CodeEntry) : e.code.length = e.len.toNat := by simp [CodeEntry.code]

/-- Bit 31 − t of word 1 + m of an entry is BITS[32m + t] (R104). -/
theorem codeWord_bit (e : CodeEntry) (m t : Nat) (hm : m < 8) (ht : t < 32) :
    (codeWord e (m + 1)).getLsbD (31 - t) = e.bit (32 * m + t) := by
  simp only [codeWord, CodeEntry.bit, BitVec.getLsbD_extractLsb', BitVec.getMsbD]
  have h1 : 31 - t < 32 := by omega
  have h2 : 32 * m + t < 256 := by omega
  simp only [h1, h2, decide_true, Bool.true_and]
  congr 1; omega

/-- A host write of word 1 + m sets BITS[32m .. 32m + 32) to the word's bits, bit 31 first, and leaves
the others (R104, R201). -/
theorem setWord_bit (e : CodeEntry) (m : Nat) (v : Word) (j : Nat) (hj : j < 256) (hm : m < 8) :
    (e.setWord (m + 1) v).bit j = if j / 32 = m then v.getLsbD (31 - j % 32) else e.bit j := by
  have mask : ∀ i < 256, (0xFFFFFFFF#256).getLsbD i = decide (i < 32) := by decide +kernel
  simp only [CodeEntry.setWord, CodeEntry.bit, BitVec.getMsbD, hj, decide_true, Bool.true_and,
    BitVec.getLsbD_or, BitVec.getLsbD_and, BitVec.getLsbD_not, BitVec.getLsbD_shiftLeft,
    BitVec.getLsbD_setWidth]
  rw [mask _ (by omega)]
  have h255 : 256 - 1 - j < 256 := by omega
  split_ifs with h
  · have h1 : ¬ 256 - 1 - j < 32 * (7 - m) := by omega
    have h2 : 256 - 1 - j - 32 * (7 - m) = 31 - j % 32 := by omega
    have h3 : 31 - j % 32 < 32 := by omega
    have h4 : 31 - j % 32 < 256 := by omega
    simp only [h255, h1, h2, h3, h4, decide_true, decide_false, Bool.not_false, Bool.true_and,
      Bool.and_true, Bool.not_true, Bool.and_false, Bool.false_or]
  · by_cases h1 : 256 - 1 - j < 32 * (7 - m)
    · simp only [h255, h1, decide_true, Bool.not_true, Bool.and_false, Bool.false_and, Bool.not_false,
        Bool.and_true, Bool.or_false]
    · have h2 : ¬ 256 - 1 - j - 32 * (7 - m) < 32 := by omega
      have h3 := BitVec.getLsbD_of_ge v (256 - 1 - j - 32 * (7 - m)) (by omega)
      simp only [h255, h2, h3, decide_true, decide_false, Bool.and_false, Bool.not_false,
        Bool.and_true, Bool.or_false]

/-! ### Reading the tables after an update -/

theorem nodeAt_set (v : Vector Node 511) (i j : Nat) (n : Node) :
    nodeAt (v.setIfInBounds i n) j = if i = j ∧ i < 511 then n else nodeAt v j := by
  simp only [nodeAt, Vector.getElem?_setIfInBounds]
  by_cases h : i = j
  · subst h
    by_cases h' : i < 511 <;> simp [h']
  · simp [h]

theorem codeAt_set (v : Vector CodeEntry 256) (i j : Nat) (e : CodeEntry) :
    codeAt (v.setIfInBounds i e) j = if i = j ∧ i < 256 then e else codeAt v j := by
  simp only [codeAt, Vector.getElem?_setIfInBounds]
  by_cases h : i = j
  · subst h
    by_cases h' : i < 256 <;> simp [h']
  · simp [h]

@[simp] theorem nodeAt_replicate (j : Nat) (n : Node) (h : j < 511) :
    nodeAt (Vector.replicate 511 n) j = n := by simp [nodeAt, h]

@[simp] theorem nodeAt_blank (j : Nat) : nodeAt (Vector.replicate 511 Node.blank) j = Node.blank := by
  by_cases h : j < 511 <;> simp [nodeAt, h]

@[simp] theorem codeAt_emptyCodes (j : Nat) : codeAt emptyCodes j = CodeEntry.blank := by
  by_cases h : j < 256 <;> simp [codeAt, emptyCodes, h]

@[simp] theorem freqAt_zero (j : Nat) : freqAt (Vector.replicate 256 0) j = 0 := by
  by_cases h : j < 256 <;> simp [freqAt, h]

/-- One more occurrence: the byte's count is one higher, every other count as before (R130). -/
theorem freqAt_countByte (f : Vector Word 256) (b : Byte) (x : Nat) :
    freqAt (countByte f b) x = if b.toNat = x then freqAt f x + 1 else freqAt f x := by
  have hb : b.toNat < 256 := b.isLt
  simp only [freqAt, countByte, Vector.getElem?_set]
  by_cases h : b.toNat = x
  · subst h; simp [hb]
  · simp [h]

end Sys2Proof.Machine
end

