-- ==== Sys2Proof/Laws/Commands.lean ====
section
/-! SUPPORT. What each command can answer, said once: the equations of the arms of `exec`, and the cases
of DECODE. -/

namespace Sys2Proof.Machine

@[simp] theorem exec_nop (s : State) : exec .nop s = .next (s.complete 0 0) := rfl

@[simp] theorem exec_clear (s : State) : exec .clear s = .next ((clearRun s).complete 0 0) := rfl

theorem exec_encode_range (s : State) (h : s.params.inCap < s.inLen.toNat) :
    exec .encode s = .next (s.complete 4 0) := by
  simp [exec, execEncode, h, ErrCode.num]

theorem exec_encode_run (s : State) (h : s.inLen.toNat ≤ s.params.inCap) :
    exec .encode s = .next ((encodeRun s).complete 0 0) := by
  simp [exec, execEncode, Nat.not_lt.2 h]

theorem exec_decode_range (s : State) (h : s.params.inCap < s.inLen.toNat) :
    exec .decode s = .next (s.complete 4 0) := by
  simp [exec, execDecode, h, ErrCode.num]

theorem exec_decode_bitLen (s : State) (h : s.inLen.toNat ≤ s.params.inCap)
    (h' : 8 * s.inLen.toNat < s.bitLen.toNat) : exec .decode s = .next (s.complete 5 0) := by
  simp [exec, execDecode, Nat.not_lt.2 h, h', ErrCode.num]

theorem exec_decode_clash (s : State) (h : RangeOk s) {a b : Byte}
    (hc : firstClash (readTable s.code) = some (a, b)) :
    exec .decode s = .next (s.complete 3 (clashInfo a b)) := by
  simp [exec, execDecode, Nat.not_lt.2 h.1, Nat.not_lt.2 h.2, hc, ErrCode.num]

theorem exec_decode_done (s : State) (h : RangeOk s) (hc : firstClash (readTable s.code) = none)
    {n : Nat} {out : ByteMem}
    (hs : scan (scanInput s) s.bitLen.toNat 0 [] 0 s.outMem = .done n out) :
    exec .decode s = .next ((decodeResult n out (decodeTableRegs s)).complete 0 0) := by
  simp [exec, execDecode, Nat.not_lt.2 h.1, Nat.not_lt.2 h.2, hc, hs]

theorem exec_decode_failed (s : State) (h : RangeOk s) (hc : firstClash (readTable s.code) = none)
    {e : ErrCode} {pos : Nat}
    (hs : scan (scanInput s) s.bitLen.toNat 0 [] 0 s.outMem = .failed e pos) :
    exec .decode s =
      .next ((decodeFailure (decodeTableRegs s)).complete e.num (BitVec.ofNat 32 pos)) := by
  simp [exec, execDecode, Nat.not_lt.2 h.1, Nat.not_lt.2 h.2, hc, hs]

/-- Everything ENCODE can do. -/
theorem exec_encode_cases {s t : State} (h : exec .encode s = .next t) :
    t = s.complete 4 0 ∨ t = (encodeRun s).complete 0 0 := by
  rcases Nat.lt_or_ge s.params.inCap s.inLen.toNat with hr | hr
  · rw [exec_encode_range s hr] at h; cases h; exact .inl rfl
  · rw [exec_encode_run s hr] at h; cases h; exact .inr rfl

/-- Everything DECODE can do. -/
theorem exec_decode_cases {s t : State} (h : exec .decode s = .next t) :
    t = s.complete 4 0 ∨ t = s.complete 5 0 ∨
    (∃ a b, firstClash (readTable s.code) = some (a, b) ∧ t = s.complete 3 (clashInfo a b)) ∨
    (∃ n out, scan (scanInput s) s.bitLen.toNat 0 [] 0 s.outMem = .done n out ∧
      t = (decodeResult n out (decodeTableRegs s)).complete 0 0) ∨
    (∃ e pos, scan (scanInput s) s.bitLen.toNat 0 [] 0 s.outMem = .failed e pos ∧
      t = (decodeFailure (decodeTableRegs s)).complete e.num (BitVec.ofNat 32 pos)) := by
  rcases Nat.lt_or_ge s.params.inCap s.inLen.toNat with hr | hr
  · rw [exec_decode_range s hr] at h; cases h; exact .inl rfl
  rcases Nat.lt_or_ge (8 * s.inLen.toNat) s.bitLen.toNat with hb | hb
  · rw [exec_decode_bitLen s hr hb] at h; cases h; exact .inr (.inl rfl)
  have ok : RangeOk s := ⟨hr, hb⟩
  cases hc : firstClash (readTable s.code) with
  | some p => rw [exec_decode_clash s ok hc] at h; cases h; exact .inr (.inr (.inl ⟨_, _, rfl, rfl⟩))
  | none =>
    cases hs : scan (scanInput s) s.bitLen.toNat 0 [] 0 s.outMem with
    | done n out =>
      rw [exec_decode_done s ok hc hs] at h; cases h
      exact .inr (.inr (.inr (.inl ⟨_, _, rfl, rfl⟩)))
    | failed e pos =>
      rw [exec_decode_failed s ok hc hs] at h; cases h
      exact .inr (.inr (.inr (.inr ⟨_, _, rfl, rfl⟩)))

end Sys2Proof.Machine
end

