-- ==== Sys2Proof/Laws/Bus.lean ====
section
/-! SUPPORT. What a host transaction can do, said once. -/

namespace Sys2Proof.Machine

/-! ### The address map at the notation's addresses -/

theorem decodeAddr_reg (p : Config.Params) (r : Reg) : decodeAddr p r.offset = some (.reg r) := by
  cases r <;> rfl

theorem decodeAddr_misaligned (p : Config.Params) {a : Word} (h : a.toNat % 4 ≠ 0) :
    decodeAddr p a = none := by simp [decodeAddr, h]

theorem decodeAddr_freqAddr (p : Config.Params) {x : Nat} (hx : x < 256) :
    decodeAddr p (freqAddr x) = some (.freq x) := by
  have hn : (freqAddr x).toNat = 0x400 + 4 * x := by simp [freqAddr]; omega
  simp (disch := omega) only [decodeAddr, hn, if_neg, if_pos]
  congr 2; omega

theorem decodeAddr_nodeAddr (p : Config.Params) {i k : Nat} (hi : i ≤ 511) (hk : k < 4) :
    decodeAddr p (nodeAddr i k) = some (.node i k) := by
  have hn : (nodeAddr i k).toNat = 0x2000 + 16 * i + 4 * k := by simp [nodeAddr]; omega
  simp (disch := omega) only [decodeAddr, hn, if_neg, if_pos]
  congr 2 <;> omega

theorem decodeAddr_codeAddr (p : Config.Params) {x k : Nat} (hx : x < 256) (hk : k ≤ 8) :
    decodeAddr p (codeAddr x k) = some (.code x k) := by
  have hn : (codeAddr x k).toNat = 0x4000 + 64 * x + 4 * k := by simp [codeAddr]; omega
  simp (disch := omega) only [decodeAddr, hn, if_neg, if_pos]
  congr 2 <;> omega

theorem decodeAddr_codeAddr_reserved (p : Config.Params) {x k : Nat} (hx : x < 256) (hk : 9 ≤ k)
    (hk' : k ≤ 15) : decodeAddr p (codeAddr x k) = none := by
  have hn : (codeAddr x k).toNat = 0x4000 + 64 * x + 4 * k := by simp [codeAddr]; omega
  simp (disch := omega) only [decodeAddr, hn, if_neg, if_pos]

theorem params_caps {p : Config.Params} (h : p.wf = true) :
    4 ≤ p.inCap ∧ p.inCap ≤ 0x10000000 ∧ p.inCap % 4 = 0 ∧ p.inCap ≤ p.outCap ∧
    p.outCap ≤ 0x10000000 ∧ p.outCap % 4 = 0 := by
  simp only [Config.Params.wf, Bool.and_eq_true, decide_eq_true_eq] at h
  have hc : Config.maxCap = 0x10000000 := rfl
  omega

theorem decodeAddr_inAddr (p : Config.Params) (hp : p.wf = true) {w : Nat} (hw : 4 * w < p.inCap) :
    decodeAddr p (inAddr (4 * w)) = some (.inMem w) := by
  obtain ⟨h1, h2, h3, h4, h5, h6⟩ := params_caps hp
  have hn : (inAddr (4 * w)).toNat = 0x10000000 + 4 * w := by simp [inAddr]; omega
  simp (disch := omega) only [decodeAddr, hn, if_neg, if_pos]
  congr 2; omega

theorem decodeAddr_outAddr (p : Config.Params) (hp : p.wf = true) {w : Nat} (hw : 4 * w < p.outCap) :
    decodeAddr p (outAddr (4 * w)) = some (.outMem w) := by
  obtain ⟨h1, h2, h3, h4, h5, h6⟩ := params_caps hp
  have hn : (outAddr (4 * w)).toNat = 0x20000000 + 4 * w := by simp [outAddr]; omega
  simp (disch := omega) only [decodeAddr, hn, if_neg, if_pos]
  congr 2; omega

/-! ### What a transaction can do -/

/-- Everything HOST_READ can do: it is refused, it draws, or it answers the value. -/
theorem hostRead_cases (a : Word) (s : State) :
    (decodeAddr s.params a = none ∧ hostRead a s = (Response.refused, s)) ∨
    (∃ t, decodeAddr s.params a = some t ∧ (s.busy && t.volatile) = true ∧
      hostRead a s =
        ({ code := .okay, data := Config.freeReadData s.draws }, { s with draws := s.draws + 1 })) ∨
    (∃ t, decodeAddr s.params a = some t ∧ (s.busy && t.volatile) = false ∧
      hostRead a s = ({ code := .okay, data := t.value s }, s)) := by
  cases h : decodeAddr s.params a with
  | none => exact .inl ⟨rfl, by simp [hostRead, h]⟩
  | some t =>
    cases hv : s.busy && t.volatile with
    | true => exact .inr (.inl ⟨t, rfl, hv, by simp [hostRead, h, hv]⟩)
    | false => exact .inr (.inr ⟨t, rfl, hv, by simp only [hostRead, h, hv]; rfl⟩)

/-- Everything HOST_WRITE can do: it is refused and changes nothing, or it writes one place. -/
theorem hostWrite_cases (a v : Word) (s : State) :
    hostWrite a v s = (Response.refused, s) ∨
    (∃ t s', decodeAddr s.params a = some t ∧ s.busy = false ∧ t.write v s = some s' ∧
      hostWrite a v s = ({ code := .okay, data := 0 }, s')) := by
  cases h : decodeAddr s.params a with
  | none => exact .inl (by simp [hostWrite, h])
  | some t =>
    cases hb : s.busy with
    | true => exact .inl (by simp [hostWrite, h, hb])
    | false =>
      cases hw : t.write v s with
      | none => exact .inl (by simp [hostWrite, h, hb, hw])
      | some s' => exact .inr ⟨t, s', rfl, rfl, hw, by simp [hostWrite, h, hb, hw]⟩

/-- Everything an accepted write can do, by the place it reaches (R201). -/
theorem write_cases {v : Word} {s s' : State} {t : Target} (h : t.write v s = some s') :
    (t = .reg .cmd ∧ s' = s.issue v) ∨ (t = .reg .status ∧ s' = s.writeStatus v) ∨
    (t = .reg .ctrl ∧ s' = { s with irqEn := v.getLsbD 0 }) ∨
    (t = .reg .inLen ∧ s' = { s with inLen := v }) ∨
    (t = .reg .bitLen ∧ s' = { s with bitLen := v }) ∨
    (∃ x k, t = .code x k ∧
      s' = { s with code := s.code.setIfInBounds x ((codeAt s.code x).setWord k v) }) ∨
    (∃ w, t = .inMem w ∧ s' = { s with inMem := s.inMem.setWord w v }) := by
  cases t with
  | reg r => cases r <;> simp_all [Target.write, eq_comm]
  | code x k => simp_all [Target.write, eq_comm]
  | inMem w => simp_all [Target.write, eq_comm]
  | freq x => simp [Target.write] at h
  | node i k => simp [Target.write] at h
  | outMem w => simp [Target.write] at h

end Sys2Proof.Machine
end

