-- ==== Sys2Proof/Laws/Step.lean ====
section
/-! SUPPORT. What one step can do, said once: by whose turn it is, and by what the BLOCK runs. -/

namespace Sys2Proof.Machine

theorem step_eq (s : State) (h : s.params.wf = true) : step s = takeTurn (nextTurn s) := by
  simp [step, h]

theorem step_badParams (s : State) (h : s.params.wf = false) : step s = .refused .badParams := by
  simp [step, h]

/-- Taking a turn from the schedule changes the schedule and nothing else. -/
theorem nextTurn_state (s : State) : (nextTurn s).2 = { s with turns := s.turns.tail } := by
  unfold nextTurn
  split
  · rename_i h; simp [h]
  · rename_i h; simp only [h, List.tail_nil]; rw [← h]

/-- Everything the BLOCK's step can do. -/
theorem blockStep_cases {s t : State} (h : blockStep s = .next t) :
    t = s ∨ ∃ v, s.rst = false ∧ s.phase = .busy v ∧
      ((∃ i, decode v = .ok i ∧ exec i s = .next t) ∨ t = s.complete 7 v) := by
  unfold blockStep at h
  split at h
  · cases h; exact .inl rfl
  · rename_i hr
    split at h
    · cases h; exact .inl rfl
    · rename_i v hv
      refine .inr ⟨v, by simpa using hr, hv, ?_⟩
      unfold runWord at h
      split at h
      · rename_i i hi; exact .inl ⟨i, hi, h⟩
      · cases h; exact .inr rfl

/-- Everything a step can do: a host step, a BLOCK step or a reset change, from the state with the turn
taken from the schedule. -/
theorem step_cases {s t : State} (h : step s = .next t) :
    s.params.wf = true ∧
    (t = hostStep { s with turns := s.turns.tail } ∨
     blockStep { s with turns := s.turns.tail } = .next t ∨
     ∃ level, t = resetStep level { s with turns := s.turns.tail }) := by
  cases hp : s.params.wf with
  | false => rw [step_badParams s hp] at h; cases h
  | true =>
    rw [step_eq s hp] at h
    have hs := nextTurn_state s
    refine ⟨rfl, ?_⟩
    generalize nextTurn s = x at h hs
    obtain ⟨turn, s'⟩ := x
    subst hs
    cases turn with
    | host => simp only [takeTurn, Host.Outcome.next.injEq] at h; exact .inl h.symm
    | block => exact .inr (.inl h)
    | rst level => simp only [takeTurn, Host.Outcome.next.injEq] at h; exact .inr (.inr ⟨level, h.symm⟩)

/-- Everything a host step can do: nothing, a move of the host alone, or one transaction. -/
theorem hostStep_cases (s : State) :
    hostStep s = s ∨ (∃ h', hostStep s = { s with host := h' }) ∨
    (∃ t h', s.rst = false ∧ hostStep s = { (perform t s).2 with host := h' }) := by
  unfold hostStep
  split
  · exact .inl rfl
  · rename_i hr
    split
    · exact .inl rfl
    · split
      · exact .inr (.inl ⟨_, rfl⟩)
      · exact .inr (.inr ⟨_, _, by simpa using hr, rfl⟩)

end Sys2Proof.Machine
end

