-- ==== Sys2Proof/Laws/PerInstr.lean ====
section
/-! SUPPORT. A fact of every command as syntax, one lemma a constructor: its command word has MBZ zero
and its OPCODE among the four of the map (R100, R101). -/

namespace Sys2Proof.Laws.WordLegal

/-- The command word has MBZ = 0 and OPCODE at most 3. -/
def Statement (i : Instr) : Prop := mbzField (encode i) = 0 ∧ opcodeField (encode i) ≤ 3

theorem nop : Statement .nop := by unfold Statement; decide

theorem encode : Statement .encode := by unfold Statement; decide

theorem decode : Statement .decode := by unfold Statement; decide

theorem clear : Statement .clear := by unfold Statement; decide

end Sys2Proof.Laws.WordLegal
end

