-- ==== Sys2Proof/Tests/Slice0.lean ====
section
/-! SUPPORT. The model's own tests: the decoder on words written out from R101, the well-formedness
checks on ill-formed terms, one step or less of each command and transaction against the vectors of
spec/95_test_vectors.md, and a witness for the hypotheses of every statement that has some. -/

namespace Sys2Proof.Tests

open Sys2Proof Sys2Proof.Machine

-- One proof at a time: many kernel evaluations at once need more memory than the check allows.
set_option Elab.async false

/-! ### Small states -/

/-- A byte memory that holds a list of bytes from index 0. -/
def memOf (l : List Byte) : ByteMem := { stamp := 0, cells := l.zipIdx.map fun x => (x.2, x.1) }

/-- Right after reset, with IN[0..n) and IN_LEN = n loaded. -/
def loaded (l : List Byte) : State :=
  { State.reset with inMem := memOf l, inLen := BitVec.ofNat 32 l.length }

/-- A code table of the listed codes. -/
def tableOf (l : List (Byte × BitString)) : Vector CodeEntry 256 :=
  l.foldl (fun t x => storeCode t x.1 x.2) emptyCodes

/-- A unit to decode: bytes, BITLEN, code table. -/
def packedUnit (l : List Byte) (n : Nat) (t : List (Byte × BitString)) : State :=
  { loaded l with bitLen := BitVec.ofNat 32 n, code := tableOf t }

/-- Table T1 of the vectors: 41 "1", 42 "00", 43 "01". -/
def t1 : List (Byte × BitString) := [(0x41, [true]), (0x42, [false, false]), (0x43, [false, true])]

/-- The table of one symbol, 41 "0". -/
def tOne : List (Byte × BitString) := [(0x41, [false])]

/-- What a command leaves. -/
def after (i : Instr) (s : State) : State :=
  match exec i s with
  | .next t => t
  | .fault _ => s
  | .refused _ => s

/-- OUT[0..OUT_LEN). -/
def output (s : State) : List Byte := (List.range s.outLen.toNat).map (outByte s.outMem)

/-- STATUS and ERR_INFO. -/
def report (s : State) : Word × Word := (statusWord s, s.errInfo)

/-! ### Decoding (R101, R102) -/

theorem test_decode_nop : decodeTableWord 32 0b00000000000000000000000000000000 = some .nop := by decide
theorem test_decode_encode : decodeTableWord 32 0b00000000000000000000000000000001 = some .encode := by
  decide
theorem test_decode_decode : decodeTableWord 32 0b00000000000000000000000000000010 = some .decode := by
  decide
theorem test_decode_clear : decodeTableWord 32 0b00000000000000000000000000000011 = some .clear := by
  decide
theorem test_decode_reserved : decode 0x000000FF = .error .reservedOpcode := by decide
theorem test_decode_mbz : decode 0x80000002 = .error .mbzNotZero := by decide
theorem test_encode_words :
    [encode .nop, encode .encode, encode .decode, encode .clear] = [0, 1, 2, 3] := by decide

/-! ### Well-formedness: a term each check refuses (R7), and the step's refusal -/

theorem test_wf_default : Config.Params.default.wf = true := by decide
theorem test_wf_inCap_small : Config.Params.wf { inCap := 0, outCap := 8 } = false := by decide
theorem test_wf_inCap_big :
    Config.Params.wf { inCap := 0x10000004, outCap := 0x10000004 } = false := by decide
theorem test_wf_inCap_odd : Config.Params.wf { inCap := 6, outCap := 8 } = false := by decide
theorem test_wf_outCap_small : Config.Params.wf { inCap := 8, outCap := 4 } = false := by decide
theorem test_wf_outCap_big : Config.Params.wf { inCap := 8, outCap := 0x10000004 } = false := by decide
theorem test_wf_outCap_odd : Config.Params.wf { inCap := 8, outCap := 10 } = false := by decide
theorem test_wf_commands :
    [Instr.nop, .encode, .decode, .clear].all Instr.wf = true := by decide
theorem test_programWf_misaligned : programWf [.rd 0x00000002] = false := by decide
theorem test_programWf_no_label : programWf [.ifGoto (.bitIs 0 0 true) 7] = false := by decide
theorem test_programWf_wait : programWf (cmdStmts 1 0 0) = true := by decide

/-! ### Commands, against the vectors of section 2 -/

/-- K2: NOP clears an earlier error. -/
theorem test_nop_clears_error :
    report (after .nop { State.reset with err := true, errCode := 4, errInfo := 9 }) = (2, 0) := by
  decide

/-- E1: stream "1001011". -/
theorem test_encode_E1 :
    let t := after .encode (loaded [0x41, 0x42, 0x41, 0x43, 0x41])
    output t = [0x96] ∧ t.bitLen = 7 ∧ t.lastBits = 7 ∧ t.nsym = 3 ∧ t.root = 4 ∧
      t.nodeCount = 5 ∧ t.maxCodeLen = 2 ∧ t.code = tableOf t1 ∧ statusWord t = 2 := by
  decide +kernel

/-- E3, "abracadabra": bytes 6E 8A DC, and the node words of its root. -/
theorem test_encode_E3 :
    let t := after .encode
      (loaded [0x61, 0x62, 0x72, 0x61, 0x63, 0x61, 0x64, 0x61, 0x62, 0x72, 0x61])
    output t = [0x6E, 0x8A, 0xDC] ∧
      (List.range 4).map (nodeWord (nodeAt t.node 8)) = [11, 0x80000000, 0, 7] := by
  decide +kernel

/-- D1, D20: the E1 unit decodes; BITS beyond LEN are ignored. -/
theorem test_decode_D20 :
    let s := packedUnit [0x96] 7 t1
    let s' := { s with code := s.code.setIfInBounds 0x41 ((codeAt s.code 0x41).setWord 1 0xFFFFFFFF) }
    output (after .decode s') = [0x41, 0x42, 0x41, 0x43, 0x41] ∧ report (after .decode s') = (2, 0) := by
  decide +kernel

/-- D3, D6, D19: the three errors a table or a stream can give, with ERR_INFO. -/
theorem test_decode_errors :
    report (after .decode (packedUnit [0x96] 8 t1)) = (0x26, 7) ∧
    report (after .decode (packedUnit [0x40] 8 tOne)) = (0x16, 1) ∧
    report (after .decode (packedUnit [] 0 [(0x10, [true]), (0x20, [true])])) = (0x36, 0x2010) := by
  decide +kernel

/-- K6: CLEAR after E1 keeps IN_LEN and BITLEN and OUT. -/
theorem test_clear_K6 :
    let t := after .clear (after .encode (loaded [0x41, 0x42, 0x41, 0x43, 0x41]))
    t.root = 0x1FF ∧ t.nodeCount = 0 ∧ codeAt t.code 0x41 = CodeEntry.blank ∧ t.outLen = 0 ∧
      outByte t.outMem 0 = 0x96 ∧ t.bitLen = 7 ∧ t.inLen = 5 := by
  decide +kernel

/-- K4: 0x00000101 is not ENCODE. -/
theorem test_illegal_K4 :
    (match step (State.reset.withFetchWord 32 0x101) with
      | .next t => report t
      | _ => (0, 0)) = (0x76, 0x101) := by
  decide +kernel

/-- PQ2: a leaf inserted before an internal node of equal FREQ is extracted first. -/
theorem test_queue_PQ2 :
    let node := (Vector.replicate 511 Node.blank).setIfInBounds 2 (Node.mkLeaf 2 2)
      |>.setIfInBounds 3 (Node.mkLeaf 3 3) |>.setIfInBounds 6 (Node.mkInternal 2 0 1)
    pqExtractMin node [3, 6, 2] = some (2, [3, 6]) := by
  decide +kernel

/-! ### The host port, against section 2.4 -/

/-- H12, H15: reserved bits of CTRL and of the LEN word. -/
theorem test_bus_reserved_bits :
    ctrlWord (hostWrite 0x0C 0xFFFFFFFF State.reset).2 = 1 ∧
    (hostRead 0x4000 (hostWrite 0x4000 0x1FF State.reset).2).1.data = 0xFF := by
  decide +kernel

/-- H13, H14: STATUS write-1-to-clear. -/
theorem test_bus_status :
    let s := { State.reset with done := true, err := true, errCode := 2 }
    statusWord (hostWrite 0x08 2 s).2 = 0x24 ∧ statusWord (hostWrite 0x08 0xFFFFFFFD s).2 = 0x26 := by
  decide

/-- H16: little-endian byte lanes. -/
theorem test_bus_lanes :
    (hostWrite 0x10000000 0x43414241 State.reset).2.inMem = memOf [0x41, 0x42, 0x41, 0x43] := by
  decide +kernel

/-- K8: STATUS reads 1 just after the CMD write. -/
theorem test_bus_busy : (hostRead 0x08 (hostWrite 0x04 1 State.reset).2).1.data = 1 := by decide +kernel

/-- I1: a completion with CTRL = 1 raises irq. -/
theorem test_irq : (after .nop { State.reset with irqEn := true }).irq = true := by decide

/-- R111: `LOADIN 0, 41, 42, 41, 43` and `ACK` encode as their transactions. -/
theorem test_program_encoding :
    encodeProgram HostAgent.idle (loadInStmts 0 0x41 0x42 0x41 0x43 ++ ackStmts) =
      [.write 0x10000000 0x43414241, .write 0x08 2] := by
  decide

/-- WAIT's branch goes back to its label while the named STATUS has BUSY = 1. -/
theorem test_host_branch :
    (hostStep { State.reset with
      host := { prog := waitStmts 5 0, pos := 2, names := [(0, 1)], resp := none } }).host.pos = 0 := by
  decide

/-! ### Witnesses: for each statement with hypotheses, data that meet them all -/

/-- A state with word `w` in flight. -/
def inFlight (w : Word) (s : State) : State := { s with phase := .busy w }

/-- E1's input, loaded. -/
def e1 : State := loaded [0x41, 0x42, 0x41, 0x43, 0x41]

theorem reset_idle : State.reset.phase = .idle := rfl

theorem reset_params : State.reset.params.wf = true := by decide

theorem blank_arenaLegal : (clearRun e1).ArenaLegal where
  queueEmpty := rfl
  validBelow i _ := by simp [show Node.blank.valid = false from rfl]
  blankAbove i _ := by simp
  countShape := .inl rfl

/-- Only the listed symbols are present in a table. -/
theorem present_t1 : ∀ x : Byte, Present (tableOf t1) x → x = 0x41 ∨ x = 0x42 ∨ x = 0x43 := by
  unfold Present; decide +kernel

theorem prefixFree_t1 : PrefixFree (tableOf t1) := by
  rintro x y ⟨hne, hx, hy, hp⟩
  rcases present_t1 x hx with rfl | rfl | rfl <;> rcases present_t1 y hy with rfl | rfl | rfl <;>
    revert hp hne <;> decide +kernel

theorem present_tOne : ∀ x : Byte, Present (tableOf tOne) x → x = 0x41 := by
  unfold Present; decide +kernel

theorem prefixFree_tOne : PrefixFree (tableOf tOne) := by
  rintro x y ⟨hne, hx, hy, -⟩
  exact hne ((present_tOne x hx).trans (present_tOne y hy).symm)

theorem ready_e1 : EncodeReady e1 where
  params := by decide
  inLen := by decide
  queue := rfl

theorem witness_DecodeOfEncodeIsCommand : Instr.wf .encode = true := rfl

theorem witness_MisalignedTransactionRefused : (0x10000001 : Word).toNat % 4 ≠ 0 := by decide

/-- Both ends of every range of the map, and the addresses just outside them. -/
theorem witness_UnmappedAndReadOnlyRefused :
    State.reset.params.wf = true ∧
    (∀ n ∈ [0x3C, 0x3FF, 0x800, 0x1FFF, 0x4024, 0x7FFF, 0x8000, 0xFFFFFFF, 0x10010000, 0x1FFFFFFF,
      0x20080000, 0xFFFFFFFF], UnmappedAddr State.reset.params n) ∧
    (∀ n ∈ [0x3B, 0x400, 0x7FF, 0x2000, 0x3FFF, 0x4023, 0x10000000, 0x1000FFFF, 0x20000000,
      0x2007FFFF], ¬ UnmappedAddr State.reset.params n) ∧
    (∀ n ∈ [0x0, 0x3, 0x18, 0x3B, 0x400, 0x7FF, 0x2000, 0x3FFF, 0x20000000, 0x2007FFFF],
      ReadOnlyAddr State.reset.params n) := by
  unfold UnmappedAddr ReadOnlyAddr; decide

theorem witness_IdleRegisterReads : State.reset.phase = .idle := reset_idle

theorem witness_FreqWordsReadOnly : State.reset.phase = .idle ∧ 0 < 256 ∧ 255 < 256 :=
  ⟨reset_idle, by decide, by decide⟩

theorem witness_NodeEntryWords :
    (clearRun e1).phase = .idle ∧ (clearRun e1).ArenaLegal ∧
      (nodeAt (clearRun e1).node 510).valid = false ∧ 510 ≤ 511 ∧ 511 ≤ 511 ∧ 3 < 4 :=
  ⟨rfl, blank_arenaLegal, by simp [show Node.blank.valid = false from rfl], by decide, by decide, by decide⟩

theorem witness_CodeAssembledFromWords :
    State.reset.phase = .idle ∧ 255 < 256 ∧ 8 ≤ 8 ∧ 9 ≤ 9 ∧ 15 ≤ 15 := by decide

theorem witness_CodeWordWrites : State.reset.phase = .idle ∧ 255 < 256 ∧ 0 < 8 ∧ 7 < 8 := by decide

theorem witness_InWordWriteReadsBack :
    State.reset.params.wf = true ∧ State.reset.phase = .idle ∧ 4 * 16383 < State.reset.params.inCap := by
  decide

theorem witness_OutWordReadOnly :
    State.reset.params.wf = true ∧ 4 * 131071 < State.reset.params.outCap ∧
      State.reset.phase = .idle := by
  decide

theorem witness_RegisterWrites : State.reset.phase = .idle := reset_idle

theorem witness_CmdWriteIssues : State.reset.phase = .idle := reset_idle

/-- One address of each kind the statement names, at the end of its range. -/
theorem witness_BusyVisibility :
    (inFlight 1 State.reset).phase = .busy 1 ∧ (inFlight 1 State.reset).params.wf = true ∧
    4 * 16383 < (inFlight 1 State.reset).params.inCap ∧
    4 * 131071 < (inFlight 1 State.reset).params.outCap ∧
    (0x30 : Word) ∈ [0x14, 0x18, 0x1C, 0x20, 0x24, 0x28, 0x2C, (0x30 : Word)] ∧
    freqAddr 255 = 0x7FC ∧ nodeAddr 511 3 = 0x3FFC ∧ codeAddr 255 8 = 0x7FE0 := by
  decide

theorem witness_BusyVisibility_refused : UnmappedAddr (inFlight 1 State.reset).params 0x3C := by
  unfold UnmappedAddr; decide

theorem witness_ReadsHaveNoSideEffect : State.reset.phase = .idle := reset_idle

theorem witness_IllegalWordCompletes :
    let s := { inFlight 0x101 State.reset with turns := [.block] }
    s.params.wf = true ∧ s.rst = false ∧ s.phase = .busy 0x101 ∧ (0x101 : Word) ≠ 0 ∧
      (0x101 : Word) ≠ 1 ∧ (0x101 : Word) ≠ 2 ∧ (0x101 : Word) ≠ 3 ∧ s.turns = .block :: [] := by
  decide

theorem witness_IllegalWordCompletes_noTurn :
    let s := inFlight 0xFFFFFFFF State.reset
    s.params.wf = true ∧ s.rst = false ∧ s.phase = .busy 0xFFFFFFFF ∧ s.turns = [] := by
  decide

/-- Word 1 of CODE(0x41), which program P3 writes CODE(0x41)+4 and gives as 0x5044. -/
theorem test_codeAddr_word : codeAddr 0x41 1 = 0x00005044 := by decide

/-- A label that stands twice: the branch goes to the first place (assumption 8). -/
theorem test_labelPos_twice : labelPos 0 [.label 0, .rd 0, .label 0] 0 = 0 := by decide

theorem witness_EncodeLengthCheck :
    let s := { State.reset with inLen := 0x10001 }
    s.params.inCap < s.inLen.toNat := by
  decide

theorem witness_EncodeCompletes :
    let s := { State.reset with inLen := 0x10000 }
    s.params.wf = true ∧ s.inLen.toNat ≤ s.params.inCap := by
  decide

theorem witness_EncodeCountsSymbols : e1.params.wf = true ∧ e1.inLen.toNat ≤ e1.params.inCap := by decide

theorem witness_ExtractMinTakesSmallestKey :
    [0, 1] ≠ [] ∧ ∃ m q, pqExtractMin (Vector.replicate 511 Node.blank) [1, 0] = some (m, q) :=
  ⟨by decide, 0, [1], by decide⟩

theorem witness_EncodeBuildsTree : EncodeReady e1 ∧ e1.inLen ≠ 0 := ⟨ready_e1, by decide⟩

theorem witness_EncodeMergesTwoSmallest :
    EncodeReady e1 ∧ e1.inLen ≠ 0 ∧ (after .encode e1).nsym.toNat ≤ 4 ∧
      4 < (after .encode e1).nodeCount.toNat :=
  ⟨ready_e1, by decide, by decide +kernel, by decide +kernel⟩

theorem witness_EncodeCodesAreTreePaths :
    EncodeReady e1 ∧ 2 ≤ (inputBytes e1).dedup.length ∧ 0x43 ∈ inputBytes e1 ∧ 0x44 ∉ inputBytes e1 :=
  ⟨ready_e1, by decide, by decide, by decide⟩

theorem witness_EncodeSingleSymbol :
    EncodeReady (loaded [0x7F]) ∧ (loaded [0x7F]).inLen ≠ 0 ∧
      ∀ b ∈ inputBytes (loaded [0x7F]), b = 0x7F :=
  ⟨⟨by decide, by decide, rfl⟩, by decide, by decide⟩

theorem witness_EncodeEmptyInput : State.reset.inLen = 0 := rfl

theorem witness_EncodeRecordsLongestCode : e1.inLen.toNat ≤ e1.params.inCap := by decide

theorem witness_EncodeTableIsPrefixFree : EncodeReady e1 ∧ 0x41 ∈ inputBytes e1 :=
  ⟨ready_e1, by decide⟩

theorem witness_EncodePacksCodes : e1.inLen.toNat ≤ e1.params.inCap := by decide

theorem witness_EncodeCannotOverflow : EncodeReady e1 := ready_e1

/-- Two states that differ in a byte beyond IN_LEN and in CTRL. -/
theorem witness_EncodeDependsOnInputOnly :
    let s' := { e1 with inMem := e1.inMem.set 5 0xFF, irqEn := true }
    EncodeReady e1 ∧ EncodeReady s' ∧ inputBytes e1 = inputBytes s' ∧ e1 ≠ s' :=
  ⟨ready_e1, ⟨by decide, by decide, rfl⟩, by decide, fun h => absurd (congrArg State.irqEn h) (by decide)⟩

theorem witness_DecodeLengthChecks :
    (let s := { State.reset with inLen := 0x10001 }; s.params.inCap < s.inLen.toNat) ∧
    (let s := packedUnit [0x96] 9 t1
     s.inLen.toNat ≤ s.params.inCap ∧ 8 * s.inLen.toNat < s.bitLen.toNat) := by
  decide

/-- BITLEN = 8 · IN_LEN is in range. -/
theorem witness_DecodeLengthChecks_inRange : RangeOk (packedUnit [0x96] 8 t1) := ⟨by decide, by decide⟩

/-- D18's table: 00 "0", 01 "01". -/
def clashing : State := packedUnit [] 0 [(0x00, [false]), (0x01, [false, true])]

theorem present_clashing : ∀ x : Byte, Present clashing.code x → x = 0 ∨ x = 1 := by
  unfold Present; decide +kernel

theorem witness_DecodeRefusesClashingTable :
    RangeOk clashing ∧ Clash clashing.code 0x00 0x01 ∧
    ∀ x y, Clash clashing.code x y → (0x00 : Byte) < x ∨ ((0x00 : Byte) = x ∧ (0x01 : Byte) ≤ y) := by
  refine ⟨⟨by decide, by decide⟩, ?_, ?_⟩
  · unfold Clash Present; decide +kernel
  · rintro x y ⟨hne, hx, hy, -⟩
    rcases present_clashing x hx with rfl | rfl <;> rcases present_clashing y hy with rfl | rfl <;>
      revert hne <;> decide

theorem witness_DecodeRefusesClashingTable_prefixFree : PrefixFree (packedUnit [0x96] 7 t1).code :=
  prefixFree_t1

theorem witness_DecodeReproducesSymbols :
    let s := packedUnit [0x96] 7 t1
    let xs : List Byte := [0x41, 0x42, 0x41, 0x43, 0x41]
    RangeOk s ∧ PrefixFree s.code ∧ (∀ x ∈ xs, Present s.code x) ∧ inStream s = streamOf s.code xs ∧
      xs.length ≤ s.params.outCap := by
  refine ⟨⟨by decide, by decide⟩, prefixFree_t1, ?_, by decide +kernel, by decide⟩
  unfold Present; decide +kernel

/-- The empty stream, D10's length. -/
theorem witness_DecodeReproducesSymbols_empty :
    let s := packedUnit [] 0 tOne
    RangeOk s ∧ PrefixFree s.code ∧ inStream s = streamOf s.code [] :=
  ⟨⟨by decide, by decide⟩, prefixFree_tOne, by decide⟩

/-- D6: the rest "1000000" has MAX_CODE_LEN = 1 bits or more. -/
theorem witness_DecodeFailsWithoutMatch_noMatch :
    let s := packedUnit [0x40] 8 tOne
    let rest : BitString := [true, false, false, false, false, false, false]
    RangeOk s ∧ PrefixFree s.code ∧ (∀ x ∈ [0x41], Present s.code x) ∧
      inStream s = streamOf s.code [0x41] ++ rest ∧ rest ≠ [] ∧
      (∀ x, Present s.code x → ¬ codeOf s.code x <+: rest) ∧ 1 ≤ s.params.outCap ∧
      longestLen s.code ≤ rest.length := by
  refine ⟨⟨by decide, by decide⟩, prefixFree_tOne, ?_, by decide +kernel, by decide, ?_, by decide,
    by decide +kernel⟩
  · unfold Present; decide +kernel
  · intro x hx
    obtain rfl := present_tOne x hx
    decide +kernel

/-- D3: the rest "0" is shorter than MAX_CODE_LEN = 2. -/
theorem witness_DecodeFailsWithoutMatch_truncated :
    let s := packedUnit [0x96] 8 t1
    let xs : List Byte := [0x41, 0x42, 0x41, 0x43, 0x41]
    RangeOk s ∧ PrefixFree s.code ∧ (∀ x ∈ xs, Present s.code x) ∧
      inStream s = streamOf s.code xs ++ [false] ∧
      (∀ x, Present s.code x → ¬ codeOf s.code x <+: [false]) ∧ xs.length ≤ s.params.outCap ∧
      ¬ longestLen s.code ≤ 1 := by
  refine ⟨⟨by decide, by decide⟩, prefixFree_t1, ?_, by decide +kernel, ?_, by decide,
    by decide +kernel⟩
  · unfold Present; decide +kernel
  · intro x hx
    rcases present_t1 x hx with rfl | rfl | rfl <;> decide +kernel

/-- D21: IN_CAP = OUT_CAP = 4 and the fifth symbol. -/
theorem witness_DecodeOverflows :
    let s := { packedUnit [0x00] 8 tOne with params := { inCap := 4, outCap := 4 } }
    let xs : List Byte := [0x41, 0x41, 0x41, 0x41]
    RangeOk s ∧ PrefixFree s.code ∧ (∀ x ∈ xs, Present s.code x) ∧ Present s.code 0x41 ∧
      inStream s = streamOf s.code xs ++ codeOf s.code 0x41 ++ [false, false, false] ∧
      xs.length = s.params.outCap := by
  refine ⟨⟨by decide, by decide⟩, prefixFree_tOne, ?_, ?_, by decide +kernel, by decide⟩ <;>
    unfold Present <;> decide +kernel

/-- The default parameters (R7). -/
theorem witness_DecodeOverflows_never : 8 * State.reset.params.inCap ≤ State.reset.params.outCap := by
  decide

/-- D1 and D2: the padding bit of IN[0] differs. -/
theorem witness_DecodeIgnoresPadding :
    let s := packedUnit [0x96] 7 t1
    (∀ pos, pos < s.bitLen.toNat → streamBit (memOf [0x97]) pos = streamBit s.inMem pos) ∧
      memOf [0x97] ≠ s.inMem ∧ ∃ t, exec .decode s = .next t :=
  ⟨by decide, by decide, _, exec_decode_done _ ⟨by decide, by decide⟩ (by decide +kernel)
    (n := 5) (out := memOf [0x41, 0x42, 0x41, 0x43, 0x41]) (by decide +kernel)⟩

/-- What ENCODE leaves of E1. -/
def e1Encoded : State := (encodeRun e1).complete 0 0

/-- P2: the host has copied OUT to IN and set IN_LEN. -/
def copied (t : State) : State := { t with inMem := memOf (output t), inLen := t.outLen }

theorem copied_triple (t : State) : (copied t).params = t.params ∧ (copied t).code = t.code ∧
    (copied t).bitLen = t.bitLen ∧ (copied t).inLen = t.outLen := ⟨rfl, rfl, rfl, rfl⟩

/-- The state that decodes E1's unit. -/
def e1Packed : State := copied e1Encoded

theorem e1Packed_bytes : ∀ i, i < e1Encoded.outLen.toNat →
    inByte e1Packed.inMem i = outByte e1Encoded.outMem i := by decide +kernel

theorem witness_DecodeOfEncodeIsInput :
    EncodeReady e1 ∧ exec .encode e1 = .next e1Encoded ∧
      (e1Packed.params = e1Encoded.params ∧ e1Packed.code = e1Encoded.code ∧
        e1Packed.bitLen = e1Encoded.bitLen ∧ e1Packed.inLen = e1Encoded.outLen) ∧
      ∀ i, i < e1Encoded.outLen.toNat → inByte e1Packed.inMem i = outByte e1Encoded.outMem i :=
  ⟨ready_e1, exec_encode_run e1 (by decide), copied_triple e1Encoded, e1Packed_bytes⟩

theorem witness_CommandsNeverWriteInputs :
    exec .clear e1 = .next ((clearRun e1).complete 0 0) := rfl

theorem witness_InterruptFollowsDone :
    exec .nop { State.reset with irqEn := true } =
      .next ({ State.reset with irqEn := true }.complete 0 0) := rfl

theorem witness_InterruptClears :
    { State.reset with done := true, irqEn := true }.phase = .idle ∧ (2 : Word).getLsbD 1 = true ∧
      (2 : Word).getLsbD 0 = false := by
  decide

/-- A host step that makes a transaction and issues nothing. -/
theorem witness_ErrorStaysUntilNextCommand :
    let s := { State.reset with host := { HostAgent.idle with prog := [.wr 0x10 (.lit 7)] } }
    (hostStep s).phase = s.phase ∧ (hostStep s).inLen = 7 := by
  decide

theorem witness_BusyHostStepChangesNothing : (inFlight 1 State.reset).phase = .busy 1 := rfl

theorem witness_ResetRestoresState :
    let s := { inFlight 1 e1 with turns := [.rst true] }
    s.params.wf = true ∧ s.turns = .rst true :: [] ∧ (resetStep true s).rst = true := by
  decide

theorem witness_StepRunsDecodedCommand :
    let s := { inFlight 1 e1 with turns := [.block] }
    s.params.wf = true ∧ decode 1 = .ok .encode ∧ s.rst = false ∧ s.phase = .busy 1 ∧
      s.turns = .block :: [] ∧ (inFlight 1 e1).turns = [] := by
  decide

theorem witness_HostTurnPerformsWrite :
    let s := { State.reset with
      turns := [.host], host := { HostAgent.idle with prog := [.wr 0x04 (.lit 1)] } }
    s.params.wf = true ∧ s.rst = false ∧ s.turns = .host :: [] ∧
      s.host.prog[s.host.pos]? = some (.wr 0x04 (.lit 1)) := by
  decide

theorem witness_IdleBlockDoesNothing :
    let s := { State.reset with turns := [.block] }
    s.params.wf = true ∧ s.phase = .idle ∧ s.turns = .block :: [] := by
  decide

theorem witness_StepNeverStops :
    State.reset.params.wf = true ∧
      { State.reset with params := { inCap := 3, outCap := 3 } }.params.wf = false := by
  decide

/-- E1's ENCODE in flight: a state that meets every invariant and whose step answers a next state. -/
def e1InFlight : State := (inFlight 1 e1)

theorem step_e1InFlight : step e1InFlight = .next ((encodeRun e1InFlight).complete 0 0) :=
  exec_encode_run e1InFlight (by decide)

theorem witness_StepKeepsStatusLegal : e1InFlight.StatusLegal ∧ ∃ t, step e1InFlight = .next t :=
  ⟨⟨by decide, by decide, by decide⟩, _, step_e1InFlight⟩

theorem witness_StepKeepsMemoryCanonical :
    e1InFlight.MemoryCanonical ∧ ∃ t, step e1InFlight = .next t :=
  ⟨⟨by decide, by decide⟩, _, step_e1InFlight⟩

theorem witness_StepKeepsDrawsFresh : e1InFlight.DrawsFresh ∧ ∃ t, step e1InFlight = .next t :=
  ⟨⟨by decide, by decide⟩, _, step_e1InFlight⟩

theorem witness_StepKeepsArenaLegal : e1InFlight.ArenaLegal ∧ ∃ t, step e1InFlight = .next t :=
  ⟨{ queueEmpty := rfl
     validBelow := fun i _ => by simp [e1InFlight, inFlight, e1, loaded, State.reset,
       show Node.blank.valid = false from rfl]
     blankAbove := fun i _ => by simp [e1InFlight, inFlight, e1, loaded, State.reset]
     countShape := .inl rfl }, _, step_e1InFlight⟩

theorem witness_StepKeepsCountsLegal : e1InFlight.CountsLegal ∧ ∃ t, step e1InFlight = .next t :=
  ⟨⟨by decide, by decide⟩, _, step_e1InFlight⟩

/-- With `rst` asserted, so that the invariant says something. -/
theorem witness_StepKeepsResetHeld :
    let s := resetStep true e1
    s.rst = true ∧ s.ResetHeld ∧ ∃ t, step s = .next t :=
  ⟨rfl, fun _ =>
    { phase := rfl, status := ⟨rfl, rfl, rfl⟩, irqEn := rfl, lengths := ⟨rfl, rfl, rfl, rfl⟩,
      counts := ⟨rfl, rfl, rfl⟩, root := rfl, errInfo := rfl,
      tables := ⟨fun _ => freqAt_zero _, fun _ => nodeAt_blank _, fun _ => codeAt_emptyCodes _⟩,
      memories := ⟨rfl, rfl⟩, queue := rfl }, _, rfl⟩

end Sys2Proof.Tests
end

section
/-! SUPPORT. A step with legal parameters answers, and no step changes the parameters: each said of the
commands, of the host's transactions and of the turns, then of `step` (R7, R230, R263). -/

namespace Sys2Proof.Machine

/-! ### Every command completes -/

theorem exec_encode_answers (s : State) : ∃ t, exec .encode s = .next t := by
  rcases Nat.lt_or_ge s.params.inCap s.inLen.toNat with hr | hr
  · exact ⟨_, exec_encode_range s hr⟩
  · exact ⟨_, exec_encode_run s hr⟩

theorem exec_decode_answers (s : State) : ∃ t, exec .decode s = .next t := by
  rcases Nat.lt_or_ge s.params.inCap s.inLen.toNat with hr | hr
  · exact ⟨_, exec_decode_range s hr⟩
  rcases Nat.lt_or_ge (8 * s.inLen.toNat) s.bitLen.toNat with hb | hb
  · exact ⟨_, exec_decode_bitLen s hr hb⟩
  have ok : RangeOk s := ⟨hr, hb⟩
  cases hc : firstClash (readTable s.code) with
  | some p => exact ⟨_, exec_decode_clash s ok hc⟩
  | none =>
    cases hs : scan (scanInput s) s.bitLen.toNat 0 [] 0 s.outMem with
    | done n out => exact ⟨_, exec_decode_done s ok hc hs⟩
    | failed e pos => exact ⟨_, exec_decode_failed s ok hc hs⟩

/-- R230: no command faults or is refused. -/
theorem exec_answers (i : Instr) (s : State) : ∃ t, exec i s = .next t := by
  cases i with
  | nop => exact ⟨_, exec_nop s⟩
  | encode => exact exec_encode_answers s
  | decode => exact exec_decode_answers s
  | clear => exact ⟨_, exec_clear s⟩

/-- R203, R208: a command word completes whether or not the decoder knows it. -/
theorem runWord_answers (v : Word) (s : State) : ∃ t, runWord v s = .next t := by
  unfold runWord
  split
  · exact exec_answers _ s
  · exact ⟨_, rfl⟩

theorem blockStep_answers (s : State) : ∃ t, blockStep s = .next t := by
  unfold blockStep
  split
  · exact ⟨_, rfl⟩
  · split
    · exact ⟨_, rfl⟩
    · exact runWord_answers _ s

theorem takeTurn_answers (turn : Turn) (s : State) : ∃ t, takeTurn (turn, s) = .next t := by
  cases turn with
  | host => exact ⟨_, rfl⟩
  | block => exact blockStep_answers s
  | rst level => exact ⟨_, rfl⟩

/-- R263: with legal parameters there is always a next state. -/
theorem safeStep_of_wf {s : State} (h : s.params.wf = true) : SafeStep s := by
  unfold SafeStep
  rw [step_eq s h]
  exact takeTurn_answers (nextTurn s).1 (nextTurn s).2

/-! ### The parameters are constants -/

theorem exec_params {i : Instr} {s t : State} (h : exec i s = .next t) : t.params = s.params := by
  cases i with
  | nop => rw [exec_nop] at h; cases h; simp
  | encode => obtain rfl | rfl := exec_encode_cases h <;> simp
  | decode =>
    obtain rfl | rfl | ⟨_, _, -, rfl⟩ | ⟨_, _, -, rfl⟩ | ⟨_, _, -, rfl⟩ := exec_decode_cases h <;> simp
  | clear => rw [exec_clear] at h; cases h; simp

theorem blockStep_params {s t : State} (h : blockStep s = .next t) : t.params = s.params := by
  obtain rfl | ⟨_, -, -, ⟨_, -, hx⟩ | rfl⟩ := blockStep_cases h
  · rfl
  · exact exec_params hx
  · simp

@[simp] theorem hostRead_params (a : Word) (s : State) : (hostRead a s).2.params = s.params := by
  obtain ⟨-, h⟩ | ⟨_, -, -, h⟩ | ⟨_, -, -, h⟩ := hostRead_cases a s <;> rw [h]

theorem write_params {v : Word} {s s' : State} {t : Target} (h : t.write v s = some s') :
    s'.params = s.params := by
  obtain ⟨-, rfl⟩ | ⟨-, rfl⟩ | ⟨-, rfl⟩ | ⟨-, rfl⟩ | ⟨-, rfl⟩ | ⟨_, _, -, rfl⟩ | ⟨_, -, rfl⟩ :=
    write_cases h <;> rfl

@[simp] theorem hostWrite_params (a v : Word) (s : State) :
    (hostWrite a v s).2.params = s.params := by
  obtain h | ⟨_, _, -, -, hw, h⟩ := hostWrite_cases a v s <;> rw [h]
  exact write_params hw

@[simp] theorem perform_params (x : Transaction) (s : State) : (perform x s).2.params = s.params := by
  cases x with
  | read a => exact hostRead_params a s
  | write a v => exact hostWrite_params a v s

@[simp] theorem hostStep_params (s : State) : (hostStep s).params = s.params := by
  obtain h | ⟨_, h⟩ | ⟨x, _, -, h⟩ := hostStep_cases s <;> rw [h]
  exact perform_params x s

@[simp] theorem resetStep_params (level : Bool) (s : State) :
    (resetStep level s).params = s.params := rfl

/-- R7: no step changes the parameters, whoever moves. -/
theorem step_params {s t : State} (h : step s = .next t) : t.params = s.params := by
  obtain ⟨-, rfl | hb | ⟨level, rfl⟩⟩ := step_cases h
  · simp
  · simpa using blockStep_params hb
  · simp

/-- Settles O52: with legal parameters the step answers, whoever moves, and keeps them; with illegal
ones it is refused before any turn is taken. -/
theorem stepNeverStops : Obligations.StepNeverStops := by
  unfold Obligations.StepNeverStops
  refine fun s => ⟨fun hwf => ?_, step_badParams s⟩
  obtain ⟨t, ht⟩ := safeStep_of_wf hwf
  exact ⟨t, ht, step_params ht⟩

end Sys2Proof.Machine
end

section
/-! SUPPORT. Everything a command, and a step, can do to the block's state, each said once, and what is
kept by every step. -/

namespace Sys2Proof.Machine

/-- `t` is what a completion step may leave from `s` (R203): one constructor a way a command ends. -/
inductive Completes (s : State) : State → Prop
  | flagsOnly (c : BitVec 4) (x : Word) : c.toNat ≤ 7 → Completes s (s.complete c x)
  | cleared : Completes s ((clearRun s).complete 0 0)
  | encoded : Completes s ((encodeRun s).complete 0 0)
  | decoded (n : Nat) (out : ByteMem) :
      scan (scanInput s) s.bitLen.toNat 0 [] 0 s.outMem = .done n out →
      Completes s ((decodeResult n out (decodeTableRegs s)).complete 0 0)
  | scanFailed (e : ErrCode) (pos : Nat) :
      scan (scanInput s) s.bitLen.toNat 0 [] 0 s.outMem = .failed e pos →
      Completes s ((decodeFailure (decodeTableRegs s)).complete e.num (BitVec.ofNat 32 pos))

theorem errCode_num_le (e : ErrCode) : e.num.toNat ≤ 7 := by cases e <;> decide

theorem exec_completes {i : Instr} {s t : State} (h : exec i s = .next t) : Completes s t := by
  cases i with
  | nop => rw [exec_nop] at h; cases h; exact .flagsOnly 0 0 (by decide)
  | clear => rw [exec_clear] at h; cases h; exact .cleared
  | encode =>
    obtain rfl | rfl := exec_encode_cases h
    · exact .flagsOnly 4 0 (by decide)
    · exact .encoded
  | decode =>
    obtain rfl | rfl | ⟨a, b, -, rfl⟩ | ⟨n, out, hs, rfl⟩ | ⟨e, pos, hs, rfl⟩ := exec_decode_cases h
    · exact .flagsOnly 4 0 (by decide)
    · exact .flagsOnly 5 0 (by decide)
    · exact .flagsOnly 3 _ (by decide)
    · exact .decoded n out hs
    · exact .scanFailed e pos hs

theorem blockStep_completes {s t : State} (h : blockStep s = .next t) :
    t = s ∨ (s.rst = false ∧ Completes s t) := by
  obtain rfl | ⟨v, hr, -, ⟨i, -, hx⟩ | rfl⟩ := blockStep_cases h
  · exact .inl rfl
  · exact .inr ⟨hr, exec_completes hx⟩
  · exact .inr ⟨hr, .flagsOnly 7 v (by decide)⟩

/-- Every completion is `complete` with a code of R231, of a state with the same CTRL. -/
theorem Completes.flags {s t : State} (h : Completes s t) :
    ∃ u c x, t = State.complete c x u ∧ c.toNat ≤ 7 ∧ u.irqEn = s.irqEn := by
  cases h with
  | flagsOnly c x hc => exact ⟨_, _, _, rfl, hc, rfl⟩
  | cleared => exact ⟨_, _, _, rfl, by decide, rfl⟩
  | encoded => exact ⟨_, _, _, rfl, by decide, rfl⟩
  | decoded n out _ => exact ⟨_, _, _, rfl, by decide, rfl⟩
  | scanFailed e pos _ => exact ⟨_, _, _, rfl, errCode_num_le e, rfl⟩

section Invariants

/-- What a property of the state must survive to be kept by every step: a move of the host alone, a read
that draws, an accepted write, a completion, a reset. -/
structure StepInvariant (P : State → Prop) : Prop where
  agents : ∀ {s} (h : HostAgent) (ts : List Turn), P s → P { s with host := h, turns := ts }
  draw : ∀ {s}, P s → P { s with draws := s.draws + 1 }
  write : ∀ {s s' t v}, s.rst = false → P s → Target.write v s t = some s' → P s'
  completes : ∀ {s t}, s.rst = false → P s → Completes s t → P t
  reset : ∀ {s} (level : Bool), P s → P (resetStep level s)

variable {P : State → Prop} (inv : StepInvariant P)
include inv

theorem StepInvariant.hostRead {s : State} (h : P s) (a : Word) : P (hostRead a s).2 := by
  obtain ⟨-, e⟩ | ⟨_, -, -, e⟩ | ⟨_, -, -, e⟩ := hostRead_cases a s <;> rw [e]
  · exact h
  · exact inv.draw h
  · exact h

theorem StepInvariant.hostWrite {s : State} (hr : s.rst = false) (h : P s) (a v : Word) :
    P (hostWrite a v s).2 := by
  obtain e | ⟨_, _, -, -, hw, e⟩ := hostWrite_cases a v s <;> rw [e]
  · exact h
  · exact inv.write hr h hw

theorem StepInvariant.hostStep {s : State} (h : P s) : P (hostStep s) := by
  obtain e | ⟨h', e⟩ | ⟨x, h', hr, e⟩ := hostStep_cases s <;> rw [e]
  · exact h
  · exact inv.agents h' s.turns h
  · refine inv.agents h' _ ?_
    cases x with
    | read a => exact inv.hostRead h a
    | write a v => exact inv.hostWrite hr h a v

/-- R82: such a property is kept whoever moves. -/
theorem StepInvariant.step {s t : State} (h : P s) (hs : step s = .next t) : P t := by
  have h' : P { s with turns := s.turns.tail } := inv.agents s.host _ h
  obtain ⟨-, rfl | hb | ⟨level, rfl⟩⟩ := step_cases hs
  · exact inv.hostStep h'
  · obtain rfl | ⟨hr, hc⟩ := blockStep_completes hb
    · exact h'
    · exact inv.completes hr h' hc
  · exact inv.reset level h'

end Invariants

end Sys2Proof.Machine
end

section
/-! SUPPORT. The invariants of the flags, the draws and the result counts (R26, R31, R32), and the reset
state. -/

namespace Sys2Proof.Machine

/-! ### What the parts of a step leave -/

/-- R201: no accepted write touches a result register, a table but CODE_MEM, OUT_MEM, the queue, or
anything that is not the block's. -/
theorem write_frame {v : Word} {s s' : State} {t : Target} (h : t.write v s = some s') :
    s' = { s with
      phase := s'.phase, done := s'.done, err := s'.err, errCode := s'.errCode, irqEn := s'.irqEn,
      inLen := s'.inLen, bitLen := s'.bitLen, code := s'.code, inMem := s'.inMem } := by
  obtain ⟨-, rfl⟩ | ⟨-, rfl⟩ | ⟨-, rfl⟩ | ⟨-, rfl⟩ | ⟨-, rfl⟩ | ⟨_, _, -, rfl⟩ | ⟨_, -, rfl⟩ :=
    write_cases h <;> rfl

@[simp] theorem ByteMem.setWord_stamp (m : ByteMem) (w : Nat) (v : Word) :
    (m.setWord w v).stamp = m.stamp := rfl

theorem write_inMem_stamp {v : Word} {s s' : State} {t : Target} (h : t.write v s = some s') :
    s'.inMem.stamp = s.inMem.stamp := by
  obtain ⟨-, rfl⟩ | ⟨-, rfl⟩ | ⟨-, rfl⟩ | ⟨-, rfl⟩ | ⟨-, rfl⟩ | ⟨_, _, -, rfl⟩ | ⟨_, -, rfl⟩ :=
    write_cases h <;> rfl

@[simp] theorem putBit_stamp (m : ByteMem) (bp : Nat) (b : Bool) : (putBit m bp b).stamp = m.stamp := by
  unfold putBit
  split <;> rfl

@[simp] theorem packCode_stamp (p : Packer) (bits : BitString) :
    (packCode p bits).mem.stamp = p.mem.stamp := by
  induction bits generalizing p with
  | nil => rfl
  | cons b r ih => exact (ih _).trans (putBit_stamp _ _ _)

@[simp] theorem packInput_stamp (c : Vector CodeEntry 256) (input : List Byte) (m : ByteMem) :
    (packInput c input m).mem.stamp = m.stamp := by
  suffices ∀ p : Packer,
      (input.foldl (fun p s => packCode p (codeAt c s.toNat).code) p).mem.stamp = p.mem.stamp from
    this _
  induction input with
  | nil => exact fun _ => rfl
  | cons s r ih => exact fun p => (ih _).trans (packCode_stamp _ _)

theorem scan_stamp (x : ScanInput) (rest pos : Nat) (cand : BitString) (n : Nat) (out : ByteMem)
    {n' : Nat} {out' : ByteMem} (hs : scan x rest pos cand n out = .done n' out') :
    out'.stamp = out.stamp := by
  induction rest generalizing pos cand n out with
  | zero => cases hs; rfl
  | succ r ih =>
    simp only [scan] at hs
    split at hs
    · split at hs
      · cases hs
      · exact (ih _ _ _ _ hs :)
    · split at hs
      · cases hs
      · split at hs
        · cases hs
        · exact ih _ _ _ _ hs

theorem lastBitsOf_le (bp : Nat) : lastBitsOf bp ≤ 8 := by
  unfold lastBitsOf
  split_ifs <;> omega

theorem distinctCount_le (f : Vector Word 256) : distinctCount f ≤ 256 :=
  (List.length_filter_le _ _).trans_eq (by simp)

theorem readTable_length_le (c : Vector CodeEntry 256) : (readTable c).length ≤ 256 := by
  rw [readTable, List.length_map]
  exact (List.length_filter_le _ _).trans_eq (by simp)

/-! ### The reset state -/

theorem resetStep_atReset (level : Bool) (s : State) : (resetStep level s).AtReset where
  phase := rfl
  status := ⟨rfl, rfl, rfl⟩
  irqEn := rfl
  lengths := ⟨rfl, rfl, rfl, rfl⟩
  counts := ⟨rfl, rfl, rfl⟩
  root := rfl
  errInfo := rfl
  tables := ⟨freqAt_zero, nodeAt_blank, codeAt_emptyCodes⟩
  memories := ⟨rfl, rfl⟩
  queue := rfl

/-- The reset state is what a reset leaves, but for the draws. -/
theorem reset_atReset : State.reset.AtReset :=
  { resetStep_atReset false State.reset with }

theorem State.AtReset.statusLegal {s : State} (h : s.AtReset) : s.StatusLegal := by
  obtain ⟨hd, he, hc⟩ := h.status
  exact ⟨fun _ => h.status, by simp [he, hc], by simp [hc]⟩

theorem State.AtReset.memoryCanonical {s : State} (h : s.AtReset) : s.MemoryCanonical := by
  obtain ⟨hi, ho⟩ := h.memories
  exact ⟨by simp [ByteMem.wf, hi], by simp [ByteMem.wf, ho]⟩

/-- An empty arena, with the queue empty, is legal. -/
theorem arenaLegal_of_blank {s : State} (hq : s.queue = []) (hc : s.nodeCount = 0)
    (hn : ∀ i, nodeAt s.node i = Node.blank) : s.ArenaLegal where
  queueEmpty := hq
  validBelow i _ := by simp [hn, hc, Node.blank]
  blankAbove i _ := hn i
  countShape := .inl (by simp [hc])

theorem State.AtReset.arenaLegal {s : State} (h : s.AtReset) : s.ArenaLegal := by
  obtain ⟨-, -, hc⟩ := h.counts
  obtain ⟨-, hn, -⟩ := h.tables
  exact arenaLegal_of_blank h.queue hc hn

theorem State.AtReset.countsLegal {s : State} (h : s.AtReset) : s.CountsLegal := by
  obtain ⟨-, -, -, hl⟩ := h.lengths
  obtain ⟨hn, -⟩ := h.counts
  exact ⟨by simp [hl], by simp [hn]⟩

theorem resetStep_drawsFresh (level : Bool) (s : State) : (resetStep level s).DrawsFresh :=
  ⟨Nat.lt_succ_self _, Nat.lt_succ_self _⟩

/-- Settles O53: the reset state is at every value of R50, and each invariant follows from that. -/
theorem resetMeetsInvariants : Obligations.ResetMeetsInvariants :=
  ⟨reset_atReset.statusLegal, reset_atReset.memoryCanonical, ⟨by decide, by decide⟩,
    reset_atReset.arenaLegal, reset_atReset.countsLegal, reset_atReset, fun _ => reset_atReset,
    by decide⟩

/-- Settles O48: a turn of `rst` is `resetStep`, which leaves the reset state; under `rst` neither agent
is enabled. -/
theorem resetRestoresState : Obligations.ResetRestoresState := by
  unfold Obligations.ResetRestoresState
  refine ⟨fun s level ts hwf hts => ⟨resetStep level { s with turns := ts }, ?_, ?_⟩, fun s hr => ?_⟩
  · rw [step_eq s hwf, nextTurn, hts]
    rfl
  · exact ⟨resetStep_atReset level _, rfl, rfl, rfl, rfl, rfl, rfl, rfl⟩
  · simp [hostStep, blockStep, hr]

/-! ### STATUS (R26, R231) -/

theorem complete_statusLegal {c : BitVec 4} (hc : c.toNat ≤ 7) (x : Word) (s : State) :
    (s.complete c x).StatusLegal :=
  ⟨fun h => by simp [State.busy] at h, by simp, hc⟩

theorem Completes.statusLegal {s t : State} (h : Completes s t) : t.StatusLegal := by
  obtain ⟨u, c, x, rfl, hc, -⟩ := h.flags
  exact complete_statusLegal hc x u

theorem issue_statusLegal (v : Word) (s : State) : (s.issue v).StatusLegal :=
  ⟨fun _ => ⟨rfl, rfl, rfl⟩, by simp, by simp⟩

/-- Clearing DONE leaves legal flags legal. -/
theorem writeStatus_statusLegal (v : Word) {s : State} (h : s.StatusLegal) :
    (s.writeStatus v).StatusLegal where
  busyClears hb := by
    obtain ⟨hd, he, hc⟩ := h.busyClears hb
    exact ⟨by simp [hd], he, hc⟩
  errIffCode := h.errIffCode
  codeReported := h.codeReported

theorem statusLegal_invariant : StepInvariant State.StatusLegal where
  agents _ _ h := { h with }
  draw h := { h with }
  write {s s' t v} _ h hw := by
    obtain ⟨-, rfl⟩ | ⟨-, rfl⟩ | ⟨-, rfl⟩ | ⟨-, rfl⟩ | ⟨-, rfl⟩ | ⟨_, _, -, rfl⟩ | ⟨_, -, rfl⟩ :=
      write_cases hw
    · exact issue_statusLegal v s
    · exact writeStatus_statusLegal v h
    all_goals exact { h with }
  completes _ _ hc := hc.statusLegal
  reset level _ := (resetStep_atReset level _).statusLegal

/-- Settles O54: a completion and an issue set STATUS to a legal value, and a host write can only clear
DONE. -/
theorem stepKeepsStatusLegal : Obligations.StepKeepsStatusLegal :=
  fun _ _ h hs => statusLegal_invariant.step h hs

/-- Settles O44: every completion sets DONE and leaves IRQ_EN. -/
theorem interruptFollowsDone : Obligations.InterruptFollowsDone := by
  unfold Obligations.InterruptFollowsDone
  refine ⟨fun s => by simp [State.irq], rfl, fun i s t h => ?_⟩
  obtain ⟨u, c, x, rfl, -, hi⟩ := (exec_completes h).flags
  simp [State.irq, hi]

/-! ### The draws -/

theorem Completes.drawsFresh {s t : State} (h : s.DrawsFresh) (hc : Completes s t) :
    t.DrawsFresh := by
  obtain ⟨hi, ho⟩ := h
  cases hc with
  | flagsOnly c x _ => exact ⟨hi, ho⟩
  | cleared => exact ⟨hi, ho⟩
  | encoded => exact ⟨hi, by simpa using ho⟩
  | decoded n out hs => exact ⟨hi, by simpa [scan_stamp _ _ _ _ _ _ hs] using ho⟩
  | scanFailed e pos _ => exact ⟨Nat.lt_succ_of_lt hi, Nat.lt_succ_self _⟩

theorem drawsFresh_invariant : StepInvariant State.DrawsFresh where
  agents _ _ h := { h with }
  draw h := ⟨Nat.lt_succ_of_lt h.inMem, Nat.lt_succ_of_lt h.outMem⟩
  write _ h hw := by
    constructor
    · rw [write_inMem_stamp hw, write_frame hw]; exact h.inMem
    · rw [write_frame hw]; exact h.outMem
  completes _ h hc := hc.drawsFresh h
  reset level _ := resetStep_drawsFresh level _

/-- Settles O56: a memory is written in place or made `any` by the draw the counter then passes. -/
theorem stepKeepsDrawsFresh : Obligations.StepKeepsDrawsFresh :=
  fun _ _ h hs => drawsFresh_invariant.step h hs

/-! ### LAST_BITS and NSYM (R31, R32) -/

theorem Completes.countsLegal {s t : State} (h : s.CountsLegal) (hc : Completes s t) :
    t.CountsLegal := by
  cases hc with
  | flagsOnly c x _ => exact { h with }
  | cleared => exact ⟨by simp, by simp⟩
  | encoded =>
    have hl := lastBitsOf_le (encodePacked s).bp
    have hn := distinctCount_le (countFreq (inputBytes s))
    exact ⟨by simp; omega, by simp; omega⟩
  | decoded n out _ =>
    have hn := readTable_length_le s.code
    exact ⟨by simp; split <;> simp, by simp; omega⟩
  | scanFailed e pos _ =>
    have hn := readTable_length_le s.code
    exact ⟨by simp, by simp; omega⟩

theorem countsLegal_invariant : StepInvariant State.CountsLegal where
  agents _ _ h := { h with }
  draw h := { h with }
  write _ h hw := by rw [write_frame hw]; exact { h with }
  completes _ h hc := hc.countsLegal h
  reset level _ := (resetStep_atReset level _).countsLegal

/-- Settles O58: both are counted from a bit position or a table of 256 entries, or cleared. -/
theorem stepKeepsCountsLegal : Obligations.StepKeepsCountsLegal :=
  fun _ _ h hs => countsLegal_invariant.step h hs

end Sys2Proof.Machine
end

section
/-! SUPPORT. What a transaction does at an address, by the place the address map gives it, and the
registers' reads and writes (R26 to R38, R49, R75). -/

namespace Sys2Proof.Machine

/-! ### Transactions by place -/

theorem busy_of_idle {s : State} (h : s.phase = .idle) : s.busy = false := by simp [State.busy, h]

theorem busy_of_busy {s : State} {c : Word} (h : s.phase = .busy c) : s.busy = true := by
  simp [State.busy, h]

theorem busy_iff (s : State) : s.busy = true ↔ s.phase ≠ .idle := by
  unfold State.busy
  split <;> simp [*]

theorem hostRead_refused {a : Word} {s : State} (h : decodeAddr s.params a = none) :
    hostRead a s = (.error, s) := by
  simp [hostRead, h, Response.refused, Response.error]

theorem hostRead_exact {a : Word} {s : State} {t : Target} (h : decodeAddr s.params a = some t)
    (hv : (s.busy && t.volatile) = false) : hostRead a s = (.okay (t.value s), s) := by
  simp only [hostRead, h, hv]
  rfl

theorem hostRead_idle {a : Word} {s : State} {t : Target} (hs : s.phase = .idle)
    (h : decodeAddr s.params a = some t) : hostRead a s = (.okay (t.value s), s) :=
  hostRead_exact h (by simp [busy_of_idle hs])

theorem hostRead_stable {a : Word} {s : State} {t : Target} (h : decodeAddr s.params a = some t)
    (hv : t.volatile = false) : hostRead a s = (.okay (t.value s), s) :=
  hostRead_exact h (by simp [hv])

/-- R49 (c): a read of the volatile set while BUSY draws a free value. -/
theorem hostRead_volatile {a : Word} {s : State} {t : Target} (hs : s.busy = true)
    (h : decodeAddr s.params a = some t) (hv : t.volatile = true) :
    hostRead a s = (.okay (Config.freeReadData s.draws), { s with draws := s.draws + 1 }) := by
  simp [hostRead, h, hs, hv, Response.okay]

/-- R49 (a): every write is refused while BUSY. -/
theorem hostWrite_busy {s : State} (hs : s.busy = true) (a v : Word) :
    hostWrite a v s = (.error, s) := by
  obtain h | ⟨_, _, -, hi, -⟩ := hostWrite_cases a v s
  · exact h
  · simp [hs] at hi

theorem hostWrite_idle {a v : Word} {s s' : State} {t : Target} (hs : s.phase = .idle)
    (h : decodeAddr s.params a = some t) (hw : t.write v s = some s') :
    hostWrite a v s = (.okay 0, s') := by
  simp [hostWrite, h, busy_of_idle hs, hw, Response.okay]

theorem regOfWord_reserved {n : Nat} (h : 15 ≤ n) : Reg.ofWord n = none := by
  unfold Reg.ofWord
  split
  case h_16 => rfl
  all_goals omega

/-- R75: the address map gives an unmapped or reserved address no place. -/
theorem decodeAddr_unmapped {p : Config.Params} (hp : p.wf = true) {a : Word}
    (h : UnmappedAddr p a.toNat) : decodeAddr p a = none := by
  obtain ⟨-, hin, -, -, hout, -⟩ := params_caps hp
  by_cases hm : a.toNat % 4 = 0
  · rcases h with h | h | h | h | h | h
    · by_cases hr : a.toNat < 0x100
      · have : Reg.ofWord (a.toNat / 4) = none := regOfWord_reserved (by omega)
        simp [decodeAddr, hm, hr, this]
      · simp (disch := omega) only [decodeAddr, if_neg, if_pos]
    all_goals simp (disch := omega) only [decodeAddr, if_neg, if_pos]
  · exact decodeAddr_misaligned p hm

/-! ### Registers -/

theorem hostRead_reg_idle {s : State} (hs : s.phase = .idle) (r : Reg) :
    hostRead r.offset s = (.okay (r.value s), s) :=
  hostRead_idle hs (decodeAddr_reg _ r)

theorem hostRead_reg_stable (s : State) {r : Reg} (hv : r.volatile = false) :
    hostRead r.offset s = (.okay (r.value s), s) :=
  hostRead_stable (decodeAddr_reg _ r) hv

theorem hostWrite_reg_idle {s s' : State} {v : Word} (hs : s.phase = .idle) {r : Reg}
    (hw : (Target.reg r).write v s = some s') : hostWrite r.offset v s = (.okay 0, s') :=
  hostWrite_idle hs (decodeAddr_reg _ r) hw

theorem ctrlWord_eq (s : State) : ctrlWord s = if s.irqEn then 1 else 0 := by
  cases h : s.irqEn <;> simp [ctrlWord, h]

/-- R26: the STATUS word, bit by bit. -/
theorem statusWord_getLsbD (s : State) (i : Nat) : (statusWord s).getLsbD i =
    if i = 0 then s.busy else if i = 1 then s.done else if i = 2 then s.err
    else if i = 3 then false else s.errCode.getLsbD (i - 4) := by
  simp only [statusWord, BitVec.getLsbD_setWidth, BitVec.getLsbD_append]
  rcases (by omega : i = 0 ∨ i = 1 ∨ i = 2 ∨ i = 3 ∨ (4 ≤ i ∧ i < 32) ∨ 32 ≤ i) with
    rfl | rfl | rfl | rfl | h | h
  case inr.inr.inr.inr.inl => 
    simp (disch := omega) only [if_neg, decide_eq_true, Bool.true_and]
    rfl
  case inr.inr.inr.inr.inr =>
    simp (disch := omega) only [if_neg, decide_eq_false, BitVec.getLsbD_of_ge, Bool.false_and]
  all_goals simp

/-- Settles O6: STATUS is outside the volatile set, so its read is exact in every PHASE. -/
theorem statusReadShowsFlags : Obligations.StatusReadShowsFlags := by
  unfold Obligations.StatusReadShowsFlags
  intro s
  refine ⟨statusWord s, hostRead_reg_stable s (r := .status) rfl, ?_, statusWord_getLsbD s 1,
    statusWord_getLsbD s 2, statusWord_getLsbD s 3, ?_, ?_⟩
  · rw [statusWord_getLsbD s 0, if_pos rfl, busy_iff]
  · refine BitVec.eq_of_getLsbD_eq fun i hi => ?_
    simp (disch := omega) only [BitVec.getLsbD_extractLsb', statusWord_getLsbD, if_neg, decide_eq_true,
      Nat.add_sub_cancel_left, Bool.true_and]
  · refine BitVec.eq_of_getLsbD_eq fun i hi => ?_
    simp (disch := omega) only [BitVec.getLsbD_extractLsb', statusWord_getLsbD, if_neg,
      BitVec.getLsbD_of_ge, Bool.and_false]
    simp

/-- Settles O7: one read of an idle register at a time, each a register's value. -/
theorem idleRegisterReads : Obligations.IdleRegisterReads := by
  unfold Obligations.IdleRegisterReads
  intro s hs
  have read := hostRead_reg_idle hs
  have hctrl := read .ctrl
  rw [show Reg.value s .ctrl = ctrlWord s from rfl, ctrlWord_eq] at hctrl
  simp only [BitVec.ofNat_toNat]
  exact ⟨read .id, read .cmd, hctrl, read .inLen, read .bitLen, read .outLen, read .lastBits,
    read .nsym, read .maxCodeLen, read .nodeCount, read .root, read .errInfo, read .inCap,
    read .outCap⟩

/-- Settles O14: one write of an idle register at a time. -/
theorem registerWrites : Obligations.RegisterWrites := by
  unfold Obligations.RegisterWrites
  intro s v hs
  have hstatus : s.writeStatus v = { s with done := if v.getLsbD 1 then false else s.done } := by
    unfold State.writeStatus
    cases v.getLsbD 1 <;> simp
  exact ⟨hostWrite_reg_idle hs (r := .status) (congrArg some hstatus),
    hostWrite_reg_idle hs (r := .ctrl) rfl, hostWrite_reg_idle hs (r := .inLen) rfl,
    hostWrite_reg_idle hs (r := .bitLen) rfl⟩

/-! ### While a command is in flight -/

/-- Bit i of byte j of a word made of four bytes (R76). -/
theorem wordOfBytes_getLsbD (f : Nat → Byte) {i j : Nat} (hj : j < 4) (hi : i < 8) :
    (wordOfBytes (f 0) (f 1) (f 2) (f 3)).getLsbD (8 * j + i) = (f j).getLsbD i := by
  simp only [wordOfBytes, BitVec.getLsbD_append]
  rcases (by omega : j = 0 ∨ j = 1 ∨ j = 2 ∨ j = 3) with rfl | rfl | rfl | rfl
  · simp [hi]
  · simp (disch := omega) only [if_neg, if_pos]; congr 1; omega
  · simp (disch := omega) only [if_neg, if_pos]; congr 1; omega
  · simp (disch := omega) only [if_neg]; congr 1; omega

/-- Byte j of a word made of four bytes (R76). -/
theorem wordOfBytes_byte (f : Nat → Byte) {j : Nat} (hj : j < 4) :
    (wordOfBytes (f 0) (f 1) (f 2) (f 3)).extractLsb' (8 * j) 8 = f j :=
  BitVec.eq_of_getLsbD_eq fun i hi => by
    rw [BitVec.getLsbD_extractLsb', wordOfBytes_getLsbD f hj hi]
    simp [hi]

/-- R49 (c): each address of the volatile set reaches a place of it. -/
theorem decodeAddr_volatile {p : Config.Params} (hp : p.wf = true) {a : Word}
    (h : (∃ r ∈ [0x14, 0x18, 0x1C, 0x20, 0x24, 0x28, 0x2C, 0x30], a = r) ∨
      (∃ x, x < 256 ∧ a = freqAddr x) ∨ (∃ i k, i ≤ 511 ∧ k < 4 ∧ a = nodeAddr i k) ∨
      (∃ x k, x < 256 ∧ k ≤ 8 ∧ a = codeAddr x k) ∨
      (∃ w, 4 * w < p.outCap ∧ a = outAddr (4 * w))) :
    ∃ t, decodeAddr p a = some t ∧ t.volatile = true := by
  obtain ⟨r, hr, rfl⟩ | ⟨x, hx, rfl⟩ | ⟨i, k, hi, hk, rfl⟩ | ⟨x, k, hx, hk, rfl⟩ | ⟨w, hw, rfl⟩ := h
  · simp only [List.mem_cons, List.not_mem_nil, or_false] at hr
    obtain rfl | rfl | rfl | rfl | rfl | rfl | rfl | rfl := hr
    · exact ⟨_, decodeAddr_reg p .bitLen, rfl⟩
    · exact ⟨_, decodeAddr_reg p .outLen, rfl⟩
    · exact ⟨_, decodeAddr_reg p .lastBits, rfl⟩
    · exact ⟨_, decodeAddr_reg p .nsym, rfl⟩
    · exact ⟨_, decodeAddr_reg p .maxCodeLen, rfl⟩
    · exact ⟨_, decodeAddr_reg p .nodeCount, rfl⟩
    · exact ⟨_, decodeAddr_reg p .root, rfl⟩
    · exact ⟨_, decodeAddr_reg p .errInfo, rfl⟩
  · exact ⟨_, decodeAddr_freqAddr p hx, rfl⟩
  · exact ⟨_, decodeAddr_nodeAddr p hi hk, rfl⟩
  · exact ⟨_, decodeAddr_codeAddr p hx hk, rfl⟩
  · exact ⟨_, decodeAddr_outAddr p hp hw, rfl⟩

/-- Settles O16: while BUSY a write is refused before its place is asked for, and a read is exact or a
draw as its place is outside or in the volatile set. -/
theorem busyVisibility : Obligations.BusyVisibility := by
  unfold Obligations.BusyVisibility
  intro s c hc hp
  have hb := busy_of_busy hc
  have hctrl := hostRead_reg_stable s (r := .ctrl) rfl
  rw [show Reg.value s .ctrl = ctrlWord s from rfl, ctrlWord_eq] at hctrl
  refine ⟨hostWrite_busy hb, ⟨?_, ?_, ?_, hctrl, ?_, ?_, ?_,
    fun w hw => ⟨inWord s.inMem w, ?_, ?_⟩⟩, ?_, ?_⟩
  · exact hostRead_reg_stable s (r := .id) rfl
  · exact hostRead_reg_stable s (r := .cmd) rfl
  · exact hostRead_reg_stable s (r := .status) rfl
  · exact hostRead_reg_stable s (r := .inLen) rfl
  · exact hostRead_reg_stable s (r := .inCap) rfl
  · exact hostRead_reg_stable s (r := .outCap) rfl
  · exact hostRead_stable (decodeAddr_inAddr _ hp hw) rfl
  · exact fun j hj => wordOfBytes_byte (fun j => inByte s.inMem (4 * w + j)) hj
  · intro a ha
    obtain ⟨t, ht, hv⟩ := decodeAddr_volatile hp ha
    exact hostRead_volatile hb ht hv
  · rintro a (hm | hu)
    · exact hostRead_refused (decodeAddr_misaligned _ hm)
    · exact hostRead_refused (decodeAddr_unmapped hp hu)

end Sys2Proof.Machine
end

section
/-! SUPPORT. The tree builder's shape: the leaves it starts from, what one merge does, and the invariant
of the merge loop, from which the legal arena follows (R150 to R152). -/

namespace Sys2Proof.Machine

/-! ### The queue -/

/-- A queue that is not empty yields a member of it. -/
theorem pqMin_answers (node : Vector Node 511) {q : List Nat} (h : q ≠ []) :
    ∃ m ∈ q, pqMin node q = some m := by
  induction q with
  | nil => exact absurd rfl h
  | cons i r ih =>
    cases hr : pqMin node r with
    | none => exact ⟨i, List.mem_cons_self, by simp [pqMin, hr]⟩
    | some m =>
      have hm : m ∈ r := by
        obtain ⟨m', hm', e⟩ := ih (by rintro rfl; simp [pqMin] at hr)
        rw [hr] at e
        cases e
        exact hm'
      cases hk : keyLt node m i with
      | true => exact ⟨m, List.mem_cons_of_mem _ hm, by simp [pqMin, hr, hk]⟩
      | false => exact ⟨i, List.mem_cons_self, by simp [pqMin, hr, hk]⟩

theorem pqExtractMin_answers (node : Vector Node 511) {q : List Nat} (h : q ≠ []) :
    ∃ m ∈ q, pqExtractMin node q = some (m, q.erase m) := by
  obtain ⟨m, hm, e⟩ := pqMin_answers node h
  exact ⟨m, hm, by simp [pqExtractMin, e]⟩

theorem pqInsert_fresh {i : Nat} {q : List Nat} (h : i ∉ q) : pqInsert i q = q ++ [i] := by
  simp [pqInsert, h]

/-! ### Adding a node -/

@[simp] theorem Arena.add_next (a : Arena) (n : Node) : (a.add n).next = a.next + 1 := rfl

theorem Arena.nodeAt_add {a : Arena} (h : a.next < 511) (n : Node) (i : Nat) :
    nodeAt (a.add n).node i = if i = a.next then n else nodeAt a.node i := by
  simp [Arena.add, nodeAt_set, h, eq_comm]

theorem Arena.nodeAt_add_of_lt {a : Arena} (n : Node) {i : Nat} (hi : i < a.next) :
    nodeAt (a.add n).node i = nodeAt a.node i := by
  simp [Arena.add, nodeAt_set, Nat.ne_of_gt hi]

/-- The arena holds the nodes of a list, all of them queued, in their order. -/
structure Arena.Lists (l : List Node) (a : Arena) : Prop where
  next : a.next = l.length
  queue : a.queue = List.range l.length
  nodes : ∀ i, nodeAt a.node i = l.getD i Node.blank

theorem Arena.Lists.add {l : List Node} {a : Arena} (h : a.Lists l) (hl : l.length < 511) (n : Node) :
    (a.add n).Lists (l ++ [n]) where
  next := by simp [h.next]
  queue := by
    have hq : (a.add n).queue = pqInsert a.next a.queue := rfl
    rw [hq, pqInsert_fresh (by simp [h.queue, h.next]), h.queue, h.next, List.length_append]
    exact List.range_succ.symm
  nodes i := by
    rw [Arena.nodeAt_add (h.next ▸ hl), h.nodes, h.next]
    split_ifs with hi
    · simp [hi]
    · rcases Nat.lt_or_gt_of_ne hi with hi | hi
      · simp [List.getElem?_append_left hi]
      · rw [List.getD_eq_default _ _ (Nat.le_of_lt hi), List.getD_eq_default _ _ (by simpa using hi)]

theorem Arena.Lists.foldl_add {m l : List Node} {a : Arena} (h : a.Lists l)
    (hl : l.length + m.length ≤ 511) : (m.foldl Arena.add a).Lists (l ++ m) := by
  induction m generalizing l a with
  | nil => simpa using h
  | cons n m ih =>
    have hm : l.length + m.length + 1 ≤ 511 := hl
    simpa using ih (h.add (by omega) n) (by simp; omega)

/-! ### The leaves (R150) -/

/-- The leaves for the symbols `s`, `s + 1`, … whose counts are listed, in their order. -/
def leafNodes (fs : List Word) (s : Nat) : List Node :=
  ((fs.zipIdx s).filter fun x => x.1 ≠ 0).map fun x => Node.mkLeaf (BitVec.ofNat 8 x.2) x.1

theorem addLeaves_eq_foldl (fs : List Word) (s : Nat) (a : Arena) :
    addLeaves fs s a = (leafNodes fs s).foldl Arena.add a := by
  induction fs generalizing s a with
  | nil => rfl
  | cons f fs ih =>
    by_cases hf : f = 0#32 <;> simp [addLeaves, ih, hf, leafNodes]

theorem leafNodes_length_le (fs : List Word) (s : Nat) : (leafNodes fs s).length ≤ fs.length := by
  rw [leafNodes, List.length_map]
  exact (List.length_filter_le _ _).trans_eq List.length_zipIdx

theorem leafNodes_valid {fs : List Word} {s : Nat} {n : Node} (h : n ∈ leafNodes fs s) :
    n.valid = true := by
  simp only [leafNodes, List.mem_map] at h
  obtain ⟨_, -, rfl⟩ := h
  rfl

/-- Leaf initialisation from an empty queue leaves the leaves and nothing else. -/
theorem leafInit_lists (f : Vector Word 256) : (leafInit f []).Lists (leafNodes f.toList 0) := by
  rw [leafInit, addLeaves_eq_foldl]
  refine Arena.Lists.foldl_add (l := []) (m := leafNodes f.toList 0) ⟨rfl, rfl, fun i => by simp⟩ ?_
  have := (leafNodes_length_le f.toList 0).trans_eq Vector.length_toList
  rw [List.length_nil]
  omega

/-! ### Merging (R151) -/

/-- The arena after `x` and `y` were taken from the queue, `q` left in it, and joined. -/
def Arena.merged (a : Arena) (x y : Nat) (q : List Nat) : Arena :=
  Arena.add { a with queue := q }
    (Node.mkInternal ((nodeAt a.node x).freq + (nodeAt a.node y).freq) x y)

theorem mergeOnce_eq (a : Arena) (h : 1 < pqSize a.queue) :
    ∃ x y q, a.queue.Perm (x :: y :: q) ∧ mergeOnce a = a.merged x y q := by
  have hq : a.queue ≠ [] := by rintro e; simp [pqSize, e] at h
  obtain ⟨x, hx, ex⟩ := pqExtractMin_answers a.node hq
  have hlen := List.length_erase_of_mem hx
  have hq' : a.queue.erase x ≠ [] := by
    intro e
    simp only [e, List.length_nil, pqSize] at hlen h
    omega
  obtain ⟨y, hy, ey⟩ := pqExtractMin_answers a.node hq'
  refine ⟨x, y, (a.queue.erase x).erase y, ?_, by simp [mergeOnce, ex, ey, Arena.merged]⟩
  exact (List.perm_cons_erase hx).trans ((List.perm_cons_erase hy).cons x)

/-- The merge loop's invariant: `k` is the number of leaves, each merge takes a node from the queue and
adds one to NODE_MEM, and the newest node is queued. -/
structure Arena.Forest (k : Nat) (a : Arena) : Prop where
  count : a.next + a.queue.length = 2 * k
  grown : k ≤ a.next
  nodup : a.queue.Nodup
  queued : ∀ i ∈ a.queue, i < a.next
  newest : a.next - 1 ∈ a.queue
  valid : ∀ i < a.next, (nodeAt a.node i).valid = true
  blank : ∀ i, a.next ≤ i → nodeAt a.node i = Node.blank

theorem Arena.Lists.forest {l : List Node} {a : Arena} (h : a.Lists l) (hl : l ≠ [])
    (hv : ∀ n ∈ l, n.valid = true) : a.Forest l.length where
  count := by simp [h.next, h.queue]; omega
  grown := h.next.ge
  nodup := h.queue ▸ List.nodup_range
  queued i hi := by simpa [h.queue, h.next] using hi
  newest := by
    have := List.length_pos_iff.2 hl
    simp [h.queue, h.next]; omega
  valid i hi := by
    have hi' : i < l.length := h.next ▸ hi
    rw [h.nodes, List.getD_eq_getElem _ _ hi']
    exact hv _ (List.getElem_mem hi')
  blank i hi := by rw [h.nodes, List.getD_eq_default _ _ (h.next ▸ hi)]

section Merge
variable {k : Nat} {a : Arena} {x y : Nat} {q : List Nat}

theorem Arena.nodeAt_merged_of_lt {i : Nat} (hi : i < a.next) :
    nodeAt (a.merged x y q).node i = nodeAt a.node i :=
  Arena.nodeAt_add_of_lt (a := { a with queue := q }) _ hi

/-- There is room in NODE_MEM for every merge (R8: at most 256 leaves). -/
theorem Arena.Forest.room (h : a.Forest k) (hk : k ≤ 256) (hp : a.queue.Perm (x :: y :: q)) :
    a.next < 511 := by
  have := h.count
  have := hp.length_eq
  simp only [List.length_cons] at this
  omega

theorem Arena.Forest.nodeAt_merged (h : a.Forest k) (hk : k ≤ 256)
    (hp : a.queue.Perm (x :: y :: q)) (i : Nat) : nodeAt (a.merged x y q).node i =
      if i = a.next then Node.mkInternal ((nodeAt a.node x).freq + (nodeAt a.node y).freq) x y
      else nodeAt a.node i :=
  Arena.nodeAt_add (a := { a with queue := q }) (h.room hk hp) _ i

/-- The nodes a merge leaves queued were queued before, hence the new one's index is fresh. -/
theorem Arena.Forest.rest_lt (h : a.Forest k) (hp : a.queue.Perm (x :: y :: q)) :
    ∀ i ∈ q, i < a.next := fun i hi => h.queued i (hp.mem_iff.2 (by simp [hi]))

theorem Arena.Forest.merged_queue (h : a.Forest k) (hp : a.queue.Perm (x :: y :: q)) :
    (a.merged x y q).queue = q ++ [a.next] :=
  pqInsert_fresh fun hi => Nat.lt_irrefl _ (h.rest_lt hp _ hi)

theorem Arena.Forest.merged (h : a.Forest k) (hk : k ≤ 256) (hp : a.queue.Perm (x :: y :: q)) :
    (a.merged x y q).Forest k := by
  have hq := h.merged_queue hp
  have hlt := h.rest_lt hp
  have hn : (a.merged x y q).next = a.next + 1 := rfl
  refine ⟨?_, Nat.le_succ_of_le h.grown, ?_, ?_, ?_, fun i hi => ?_, fun i hi => ?_⟩
  · have := h.count
    have := hp.length_eq
    simp [hn, hq] at this ⊢; omega
  · have hnd : (x :: y :: q).Nodup := hp.nodup_iff.1 h.nodup
    rw [hq]
    exact List.Nodup.append hnd.of_cons.of_cons (by simp) (by simpa using fun hi => Nat.lt_irrefl _ (hlt _ hi))
  · intro i hi
    simp only [hq, List.mem_append, List.mem_singleton] at hi
    obtain hi | rfl := hi
    · exact Nat.lt_succ_of_lt (hlt i hi)
    · exact Nat.lt_succ_self _
  · simp [hn, hq]
  · rw [h.nodeAt_merged hk hp]
    split_ifs with hne
    · rfl
    · exact h.valid i (by omega)
  · rw [h.nodeAt_merged hk hp, if_neg (by omega)]
    exact h.blank i (by omega)

end Merge

/-- The merge loop run to its end: it leaves one node queued, and keeps whatever every merge keeps. -/
theorem mergeLoop_ends {P : Arena → Prop} {k : Nat} (hk : k ≤ 256)
    (hP : ∀ a x y q, a.Forest k → a.queue.Perm (x :: y :: q) → P a → P (a.merged x y q))
    (r : Nat) {a : Arena} (h : a.Forest k) (ha : P a) (hr : pqSize a.queue ≤ r + 1) :
    (mergeLoop r a).Forest k ∧ P (mergeLoop r a) ∧ pqSize (mergeLoop r a).queue ≤ 1 := by
  induction r generalizing a with
  | zero => exact ⟨h, ha, hr⟩
  | succ r ih =>
    rw [mergeLoop]
    split_ifs with hq
    · obtain ⟨x, y, q, hp, e⟩ := mergeOnce_eq a hq
      rw [e]
      refine ih (h.merged hk hp) (hP a x y q h hp ha) ?_
      have := hp.length_eq
      simp only [pqSize, h.merged_queue hp, List.length_append, List.length_cons,
        List.length_nil] at hr this ⊢
      omega
    · exact ⟨h, ha, Nat.not_lt.1 hq⟩

/-- Merged down to one queued node, that node is the newest, of index 2k − 2 (R152). -/
theorem Arena.Forest.root {k : Nat} {a : Arena} (h : a.Forest k) (hq : pqSize a.queue ≤ 1) :
    a.queue = [2 * k - 2] ∧ a.next = 2 * k - 1 := by
  have hc := h.count
  have hm := h.newest
  cases e : a.queue with
  | nil => simp [e] at hm
  | cons r l =>
    have hl : l = [] := List.length_eq_zero_iff.1 (by simp [pqSize, e] at hq; simpa using hq)
    subst hl
    simp only [e, List.length_singleton, List.mem_singleton] at hc hm
    refine ⟨?_, by omega⟩
    congr 1
    omega

theorem takeRoot_of_singleton {a : Arena} {r : Nat} (h : a.queue = [r]) : takeRoot a =
    { node := a.node, queue := [], root := BitVec.ofNat 9 r, count := BitVec.ofNat 10 a.next } := by
  simp [takeRoot, h, pqExtractMin, pqMin]

/-- The tree of no leaves (R155). -/
theorem buildTree_empty {f : Vector Word 256} (h : leafNodes f.toList 0 = []) :
    (buildTree f []).queue = [] ∧ (buildTree f []).count = 0 ∧
    ∀ i, nodeAt (buildTree f []).node i = Node.blank := by
  have hl := leafInit_lists f
  rw [h] at hl
  have hn : (leafInit f []).next = 0 := hl.next
  have e : buildTree f [] = { node := (leafInit f []).node, queue := (leafInit f []).queue,
                              root := Config.nil, count := 0 } := by simp [buildTree, hn]
  rw [e]
  exact ⟨hl.queue, rfl, hl.nodes⟩

/-- The tree of k ≥ 1 leaves: the arena the merge loop ends with, without its queue. -/
theorem buildTree_forest {P : Arena → Prop} {f : Vector Word 256} {k : Nat}
    (hk : k = (leafNodes f.toList 0).length) (hpos : 1 ≤ k) (hleaf : P (leafInit f []))
    (hP : ∀ a x y q, a.Forest k → a.queue.Perm (x :: y :: q) → P a → P (a.merged x y q)) :
    ∃ a : Arena, a.Forest k ∧ P a ∧ a.queue = [2 * k - 2] ∧ a.next = 2 * k - 1 ∧
      buildTree f [] = { node := a.node, queue := [], root := BitVec.ofNat 9 (2 * k - 2),
                         count := BitVec.ofNat 10 (2 * k - 1) } := by
  have hl := leafInit_lists f
  have hk' : k ≤ 256 := hk ▸ (leafNodes_length_le f.toList 0).trans_eq Vector.length_toList
  have hne : leafNodes f.toList 0 ≠ [] := List.length_pos_iff.1 (hk ▸ hpos)
  have hf : (leafInit f []).Forest k := hk ▸ hl.forest hne fun _ => leafNodes_valid
  have hn : (leafInit f []).next ≠ 0 := by rw [hl.next]; omega
  obtain ⟨hforest, hp, hsize⟩ :=
    mergeLoop_ends hk' hP (pqSize (leafInit f []).queue) hf hleaf (Nat.le_succ _)
  obtain ⟨hroot, hnext⟩ := hforest.root hsize
  refine ⟨_, hforest, hp, hroot, hnext, ?_⟩
  simp only [buildTree, if_neg hn]
  rw [takeRoot_of_singleton hroot, hnext]

/-! ### The arena stays legal -/

theorem encodeRun_arenaLegal {s : State} (hq : s.queue = []) : (encodeRun s).ArenaLegal := by
  have htree : encodeTree s = buildTree (countFreq (inputBytes s)) [] := by rw [encodeTree, hq]
  rcases Nat.eq_zero_or_pos (leafNodes (countFreq (inputBytes s)).toList 0).length with hk | hk
  · obtain ⟨hqueue, hcount, hnode⟩ := buildTree_empty (List.length_eq_zero_iff.1 hk)
    rw [← htree] at hqueue hcount hnode
    exact arenaLegal_of_blank hqueue hcount hnode
  · have hle := (leafNodes_length_le (countFreq (inputBytes s)).toList 0).trans_eq Vector.length_toList
    obtain ⟨a, hf, -, -, hnext, e⟩ :=
      buildTree_forest (P := fun _ => True) rfl hk trivial fun _ _ _ _ _ _ _ => trivial
    rw [← htree] at e
    generalize (leafNodes (countFreq (inputBytes s)).toList 0).length = k at *
    have hcount : (encodeRun s).nodeCount.toNat = a.next := by
      simp [e, hnext]; omega
    have hnode : (encodeRun s).node = a.node := by simp [e]
    refine ⟨by simp [e], fun i _ => ?_, fun i hi => ?_, .inr ⟨k, hk, hle, by omega⟩⟩
    · rw [hnode, hcount]
      refine ⟨fun hv => ?_, hf.valid i⟩
      by_contra hi
      rw [hf.blank i (Nat.not_lt.1 hi)] at hv
      cases hv
    · rw [hnode]
      exact hf.blank i (hcount ▸ hi)

theorem Completes.arenaLegal {s t : State} (h : s.ArenaLegal) (hc : Completes s t) :
    t.ArenaLegal := by
  cases hc with
  | flagsOnly c x _ => exact { h with }
  | cleared => exact arenaLegal_of_blank h.queueEmpty rfl nodeAt_blank
  | encoded => exact { encodeRun_arenaLegal h.queueEmpty with }
  | decoded n out _ => exact { h with }
  | scanFailed e pos _ => exact { h with }

theorem arenaLegal_invariant : StepInvariant State.ArenaLegal where
  agents _ _ h := { h with }
  draw h := { h with }
  write _ h hw := by rw [write_frame hw]; exact { h with }
  completes _ h hc := hc.arenaLegal h
  reset level _ := (resetStep_atReset level _).arenaLegal

/-- Settles O57: only ENCODE, CLEAR and a reset write the arena; ENCODE leaves 2k − 1 nodes and no queue
by the merge loop's invariant. -/
theorem stepKeepsArenaLegal : Obligations.StepKeepsArenaLegal :=
  fun _ _ h hs => arenaLegal_invariant.step h hs

end Sys2Proof.Machine
end

section
/-! SUPPORT. The tree ENCODE leaves: the leaves are the symbols of the input with their counts, and the
merges link every other node to one parent and keep the sum of the counts (R150 to R153). -/

namespace Sys2Proof.Machine

/-! ### The counts (R130) -/

@[simp] theorem inputBytes_length (s : State) : (inputBytes s).length = s.inLen.toNat := by
  simp [inputBytes]

theorem freqAt_countFreq (xs : List Byte) (x : Byte) :
    freqAt (countFreq xs) x.toNat = BitVec.ofNat 32 (xs.count x) := by
  suffices ∀ f : Vector Word 256, freqAt (xs.foldl countByte f) x.toNat =
      freqAt f x.toNat + BitVec.ofNat 32 (xs.count x) by
    rw [countFreq, this]
    exact (congrArg (· + _) (freqAt_zero _)).trans (BitVec.zero_add _)
  induction xs with
  | nil => simp
  | cons b xs ih =>
    intro f
    rw [List.foldl_cons, ih, freqAt_countByte, List.count_cons]
    by_cases hb : b = x
    · simp only [hb, if_true, beq_self_eq_true, BitVec.ofNat_add, BitVec.ofNat_eq_ofNat]
      ac_rfl
    · have : b.toNat ≠ x.toNat := fun h => hb (BitVec.eq_of_toNat_eq h)
      simp [hb, this]

section Counts
variable {xs : List Byte} (h : xs.length < 2 ^ 32)
include h

/-- With at most 2^32 − 1 bytes no count wraps (R9). -/
theorem freqAt_countFreq_toNat (x : Byte) :
    (freqAt (countFreq xs) x.toNat).toNat = xs.count x := by
  have := List.count_le_length (a := x) (l := xs)
  rw [freqAt_countFreq, BitVec.toNat_ofNat, Nat.mod_eq_of_lt (by omega)]

theorem freqAt_countFreq_ne_zero (x : Byte) :
    freqAt (countFreq xs) x.toNat ≠ 0 ↔ x ∈ xs := by
  rw [← List.count_pos_iff, ← freqAt_countFreq_toNat h, ← BitVec.toNat_inj.ne]
  exact Nat.pos_iff_ne_zero.symm

end Counts

/-! ### The leaves (R150) -/

theorem mem_leafNodes {f : Vector Word 256} {n : Node} : n ∈ leafNodes f.toList 0 ↔
    ∃ x : Byte, freqAt f x.toNat ≠ 0 ∧ n = Node.mkLeaf x (freqAt f x.toNat) := by
  simp only [leafNodes, List.mem_map, List.mem_filter, decide_eq_true_eq, Prod.exists,
    List.mem_zipIdx_iff_getElem?]
  constructor
  · rintro ⟨w, i, ⟨hw, h0⟩, rfl⟩
    have hi : i < 256 := by simpa using (List.getElem?_eq_some_iff.1 hw).1
    have hf : freqAt f i = w := by simp_all [freqAt]
    have hx : (BitVec.ofNat 8 i).toNat = i := by simp; omega
    exact ⟨BitVec.ofNat 8 i, by rwa [hx, hf], by rw [hx, hf]⟩
  · rintro ⟨x, h0, rfl⟩
    have hx : x.toNat < 256 := x.isLt
    exact ⟨freqAt f x.toNat, x.toNat, ⟨by simp [freqAt, hx], h0⟩, by simp⟩

/-- The leaves stand in ascending symbol order. -/
theorem leafNodes_sorted (f : Vector Word 256) :
    (leafNodes f.toList 0).Pairwise fun m n => m.sym < n.sym := by
  have hz : (f.toList.zipIdx).Pairwise fun x y => x.2 < y.2 := by
    rw [← List.pairwise_map, List.zipIdx_map_snd]
    exact List.pairwise_lt_range'
  refine List.pairwise_map.2 ((hz.filter _).imp_of_mem fun {x y} hx hy hxy => ?_)
  have bound {z : Word × Nat} (hz : z ∈ f.toList.zipIdx.filter fun x => x.1 ≠ 0) : z.2 < 256 := by
    simpa using List.snd_lt_of_mem_zipIdx (List.mem_of_mem_filter hz)
  have := bound hx
  have := bound hy
  simp only [Node.mkLeaf, BitVec.lt_def, BitVec.toNat_ofNat]
  omega

theorem distinctCount_eq (f : Vector Word 256) : distinctCount f = (leafNodes f.toList 0).length := by
  rw [distinctCount, leafNodes, List.length_map]
  conv_lhs => rw [← List.zipIdx_map_fst 0 f.toList, List.filter_map, List.length_map]
  rfl

section Leaves
variable {xs : List Byte} (h : xs.length < 2 ^ 32)
include h

/-- The leaves' symbols are the distinct symbols of the input. -/
theorem leafNodes_syms_perm :
    ((leafNodes (countFreq xs).toList 0).map Node.sym).Perm xs.dedup := by
  have hnd : ((leafNodes (countFreq xs).toList 0).map Node.sym).Nodup :=
    List.pairwise_map.2 ((leafNodes_sorted _).imp fun hlt => (BitVec.ne_of_lt hlt))
  refine (List.perm_ext_iff_of_nodup hnd (List.nodup_dedup _)).2 fun x => ?_
  simp only [List.mem_map, mem_leafNodes, List.mem_dedup, freqAt_countFreq_ne_zero h]
  constructor
  · rintro ⟨_, ⟨x, hx, rfl⟩, rfl⟩
    exact hx
  · exact fun hx => ⟨_, ⟨x, hx, rfl⟩, rfl⟩

theorem leafNodes_length : (leafNodes (countFreq xs).toList 0).length = xs.dedup.length := by
  simpa using (leafNodes_syms_perm h).length_eq

/-- R153: the leaves' frequencies add up to the input's length. -/
theorem leafNodes_freq_sum :
    ((leafNodes (countFreq xs).toList 0).map fun n => n.freq.toNat).sum = xs.length := by
  have hcount : (leafNodes (countFreq xs).toList 0).map (fun n => n.freq.toNat) =
      ((leafNodes (countFreq xs).toList 0).map Node.sym).map fun x => xs.count x := by
    rw [List.map_map]
    refine List.map_congr_left fun n hn => ?_
    obtain ⟨x, -, rfl⟩ := mem_leafNodes.1 hn
    exact freqAt_countFreq_toNat h x
  rw [hcount, ((leafNodes_syms_perm h).map _).sum_eq]
  exact List.sum_map_count_dedup_eq_length xs

end Leaves

/-! ### The links of the tree (R151, R153) -/

/-- Node `i` joins two different nodes below it, and its FREQ is the sum of theirs. -/
def JoinsTwo (node : Vector Node 511) (i : Nat) : Prop :=
  (nodeAt node i).leaf = false ∧ (nodeAt node i).sym = 0 ∧ (nodeAt node i).left.toNat < i ∧
  (nodeAt node i).right.toNat < i ∧ (nodeAt node i).left ≠ (nodeAt node i).right ∧
  (nodeAt node i).freq.toNat = (nodeAt node (nodeAt node i).left.toNat).freq.toNat +
    (nodeAt node (nodeAt node i).right.toNat).freq.toNat

/-- Exactly one of the nodes `k`, …, `n - 1` has `c` for a child. -/
def OneParent (node : Vector Node 511) (k n c : Nat) : Prop :=
  ∃ i, (k ≤ i ∧ i < n ∧ IsChild node c i) ∧ ∀ i', k ≤ i' → i' < n → IsChild node c i' → i' = i

/-- Joining two nodes looks at nothing from `i + 1` up. -/
theorem JoinsTwo.congr {node node' : Vector Node 511} {i : Nat} (h : JoinsTwo node i)
    (e : ∀ j ≤ i, nodeAt node' j = nodeAt node j) : JoinsTwo node' i := by
  obtain ⟨hleaf, hsym, hl, hr, hne, hfreq⟩ := h
  unfold JoinsTwo
  rw [e i (Nat.le_refl i), e _ (Nat.le_of_lt hl), e _ (Nat.le_of_lt hr)]
  exact ⟨hleaf, hsym, hl, hr, hne, hfreq⟩

/-- What the merges have made of the leaves `l`, whose frequencies add up to `total`: the leaves stand
where they stood, every later node joins two, a node has one parent when it has left the queue and none
before, and the queued frequencies still add up to `total`. -/
structure Arena.Linked (l : List Node) (total : Nat) (a : Arena) : Prop where
  leaves : ∀ i < l.length, nodeAt a.node i = l.getD i Node.blank
  joins : ∀ i, l.length ≤ i → i < a.next → JoinsTwo a.node i
  parent : ∀ c < a.next, c ∉ a.queue → OneParent a.node l.length a.next c
  orphan : ∀ c ∈ a.queue, ∀ i, l.length ≤ i → i < a.next → ¬ IsChild a.node c i
  total : (a.queue.map fun i => (nodeAt a.node i).freq.toNat).sum = total

/-- Before the first merge there are leaves only, all queued. -/
theorem Arena.Lists.linked {l : List Node} {a : Arena} (h : a.Lists l) :
    a.Linked l (l.map fun n => n.freq.toNat).sum where
  leaves i _ := h.nodes i
  joins i hk hi := absurd (h.next ▸ hi) (Nat.not_lt.2 hk)
  parent c hc hq := absurd (by simpa [h.queue, h.next] using hc) hq
  orphan c _ i hk hi := absurd (h.next ▸ hi) (Nat.not_lt.2 hk)
  total := by
    congr 1
    rw [h.queue]
    refine List.ext_getElem (by simp) fun i hi _ => ?_
    have hi' : i < l.length := by simpa using hi
    simp [h.nodes, hi']

section Merge
variable {l : List Node} {total : Nat} {a : Arena} {x y : Nat} {q : List Nat}
variable (hf : a.Forest l.length) (hp : a.queue.Perm (x :: y :: q))
include hf hp

/-- The two nodes a merge takes are different nodes of the arena, and are queued no more. -/
theorem Arena.Forest.taken : x < a.next ∧ y < a.next ∧ x ≠ y ∧ x ∉ q ∧ y ∉ q := by
  have hnd := hp.nodup_iff.1 hf.nodup
  simp only [List.nodup_cons, List.mem_cons, not_or] at hnd
  obtain ⟨⟨hxy, hxq⟩, hyq, -⟩ := hnd
  exact ⟨hf.queued x (hp.mem_iff.2 (by simp)), hf.queued y (hp.mem_iff.2 (by simp)), hxy, hxq, hyq⟩

variable (hl : l.length ≤ 256)
include hl

/-- The children of the node a merge adds are the two nodes it took. -/
theorem isChild_merged_new (c : Nat) :
    IsChild (a.merged x y q).node c a.next ↔ x = c ∨ y = c := by
  have hroom := hf.room hl hp
  obtain ⟨hx, hy, -⟩ := hf.taken hp
  simp only [IsChild, hf.nodeAt_merged hl hp, if_true, Node.mkInternal, BitVec.toNat_ofNat]
  rw [Nat.mod_eq_of_lt (by omega), Nat.mod_eq_of_lt (by omega)]

omit hf hp hl in
theorem isChild_merged_old (c : Nat) {i : Nat} (hi : i < a.next) :
    IsChild (a.merged x y q).node c i ↔ IsChild a.node c i := by
  simp only [IsChild, Arena.nodeAt_merged_of_lt hi]

omit hf hp hl in
theorem Arena.lt_merged_next {i : Nat} (hi : i < (a.merged x y q).next) :
    i < a.next ∨ i = a.next :=
  Nat.lt_succ_iff_lt_or_eq.1 hi

variable (h : a.Linked l total) (ht : total < 2 ^ 32)
include h

omit hf hl in
/-- The queued frequencies, with those of the two nodes a merge takes set apart. -/
theorem Arena.Linked.split_total : (nodeAt a.node x).freq.toNat + ((nodeAt a.node y).freq.toNat +
    (q.map fun i => (nodeAt a.node i).freq.toNat).sum) = total := by
  rw [← h.total, (hp.map _).sum_eq]
  rfl

include ht in
/-- The sum of the two frequencies joined does not wrap. -/
theorem Arena.Linked.freq_merged_new : (nodeAt (a.merged x y q).node a.next).freq.toNat =
    (nodeAt a.node x).freq.toNat + (nodeAt a.node y).freq.toNat := by
  have hsum := h.split_total hp
  rw [hf.nodeAt_merged hl hp, if_pos rfl, Node.mkInternal, BitVec.toNat_add]
  exact Nat.mod_eq_of_lt (by omega)

include ht in
theorem Arena.Linked.joins_merged : JoinsTwo (a.merged x y q).node a.next := by
  have hroom := hf.room hl hp
  obtain ⟨hx, hy, hxy, -⟩ := hf.taken hp
  have hfreq := h.freq_merged_new hf hp hl ht
  have hx' : (BitVec.ofNat 9 x).toNat = x := by simp; omega
  have hy' : (BitVec.ofNat 9 y).toNat = y := by simp; omega
  have hne : BitVec.ofNat 9 x ≠ BitVec.ofNat 9 y := fun e => hxy (by rw [← hx', e, hy'])
  have hnew := hf.nodeAt_merged hl hp a.next
  rw [if_pos rfl] at hnew
  unfold JoinsTwo
  rw [hfreq, hnew]
  simp only [Node.mkInternal, hx', hy', Arena.nodeAt_merged_of_lt hx, Arena.nodeAt_merged_of_lt hy]
  exact ⟨trivial, trivial, hx, hy, hne, trivial⟩

theorem Arena.Linked.parent_merged (c : Nat) (hc : c < (a.merged x y q).next)
    (hcq : c ∉ (a.merged x y q).queue) :
    OneParent (a.merged x y q).node l.length (a.merged x y q).next c := by
  have hnew := isChild_merged_new hf hp hl
  have hmem : c ∈ a.queue ↔ c = x ∨ c = y ∨ c ∈ q := by simp [hp.mem_iff]
  simp only [hf.merged_queue hp, List.mem_append, List.mem_singleton, not_or] at hcq
  by_cases hxy : x = c ∨ y = c
  · have hcold : c ∈ a.queue := hmem.2 (by tauto)
    refine ⟨a.next, ⟨hf.grown, Nat.lt_succ_self _, (hnew c).2 hxy⟩, fun j hkj hj hj' => ?_⟩
    obtain hj | rfl := Arena.lt_merged_next hj
    · exact absurd ((isChild_merged_old c hj).1 hj') (h.orphan c hcold j hkj hj)
    · rfl
  · have hcold : c ∉ a.queue := by rw [hmem]; tauto
    have hlt : c < a.next := (Arena.lt_merged_next hc).resolve_right hcq.2
    obtain ⟨i, ⟨hk, hi, hi'⟩, huniq⟩ := h.parent c hlt hcold
    refine ⟨i, ⟨hk, Nat.lt_succ_of_lt hi, (isChild_merged_old c hi).2 hi'⟩, fun j hkj hj hj' => ?_⟩
    obtain hj | rfl := Arena.lt_merged_next hj
    · exact huniq j hkj hj ((isChild_merged_old c hj).1 hj')
    · exact absurd ((hnew c).1 hj') hxy

theorem Arena.Linked.orphan_merged (c : Nat) (hcq : c ∈ (a.merged x y q).queue) (i : Nat)
    (hk : l.length ≤ i) (hi : i < (a.merged x y q).next) :
    ¬ IsChild (a.merged x y q).node c i := by
  obtain ⟨hx, hy, -, hxq, hyq⟩ := hf.taken hp
  simp only [hf.merged_queue hp, List.mem_append, List.mem_singleton] at hcq
  obtain hi | rfl := Arena.lt_merged_next hi
  · rw [isChild_merged_old c hi]
    obtain hcq | rfl := hcq
    · exact h.orphan c (hp.mem_iff.2 (by simp [hcq])) i hk hi
    · obtain ⟨-, -, hleft, hright, -⟩ := h.joins i hk hi
      unfold IsChild
      omega
  · rw [isChild_merged_new hf hp hl]
    obtain hcq | rfl := hcq
    · rintro (rfl | rfl) <;> contradiction
    · omega

include ht

theorem Arena.Linked.total_merged : ((a.merged x y q).queue.map fun i =>
    (nodeAt (a.merged x y q).node i).freq.toNat).sum = total := by
  have hrest : q.map (fun i => (nodeAt (a.merged x y q).node i).freq.toNat) =
      q.map fun i => (nodeAt a.node i).freq.toNat :=
    List.map_congr_left fun i hi => by rw [Arena.nodeAt_merged_of_lt (hf.rest_lt hp i hi)]
  have hsum := h.split_total hp
  rw [hf.merged_queue hp, List.map_append, List.sum_append, hrest, List.map_singleton,
    List.sum_singleton, h.freq_merged_new hf hp hl ht]
  omega

theorem Arena.Linked.merged : (a.merged x y q).Linked l total where
  leaves i hi := by
    rw [Arena.nodeAt_merged_of_lt (Nat.lt_of_lt_of_le hi hf.grown)]
    exact h.leaves i hi
  joins i hk hi := by
    obtain hi | rfl := Arena.lt_merged_next hi
    · exact (h.joins i hk hi).congr fun j hj => Arena.nodeAt_merged_of_lt (by omega)
    · exact h.joins_merged hf hp hl ht
  parent := h.parent_merged hf hp hl
  orphan := h.orphan_merged hf hp hl
  total := h.total_merged hf hp hl ht

end Merge

/-! ### The tree of an input -/

section Tree
variable {xs : List Byte} (h : xs.length < 2 ^ 32) {l : List Node}
variable (hl : l = leafNodes (countFreq xs).toList 0)
include hl

theorem leafNodes_length_le_256 : l.length ≤ 256 :=
  hl ▸ (leafNodes_length_le _ _).trans_eq Vector.length_toList

include h

theorem leafNodes_length_pos (hne : xs ≠ []) : 1 ≤ l.length := by
  rw [hl, leafNodes_length h]
  exact List.length_pos_iff.2 (mt (List.dedup_eq_nil xs).1 hne)

/-- The tree of a non-empty sequence: its leaves, merged down to one linked tree. -/
theorem buildTree_linked (hne : xs ≠ []) : ∃ a : Arena, a.Forest l.length ∧ a.Linked l xs.length ∧
    a.queue = [2 * l.length - 2] ∧ a.next = 2 * l.length - 1 ∧
    buildTree (countFreq xs) [] =
      { node := a.node, queue := [], root := BitVec.ofNat 9 (2 * l.length - 2),
        count := BitVec.ofNat 10 (2 * l.length - 1) } := by
  have hleaf := (leafInit_lists (countFreq xs)).linked
  rw [leafNodes_freq_sum h, ← hl] at hleaf
  exact buildTree_forest (congrArg _ hl) (leafNodes_length_pos h hl hne) hleaf
    fun _ _ _ _ hf hp ha => ha.merged hf hp (leafNodes_length_le_256 hl) h

theorem Arena.Linked.leaf {a : Arena} {total : Nat} (ha : a.Linked l total) {i : Nat}
    (hi : i < l.length) :
    ∃ x ∈ xs, nodeAt a.node i = Node.mkLeaf x (freqAt (countFreq xs) x.toNat) := by
  have hmem : l[i] ∈ leafNodes (countFreq xs).toList 0 := hl ▸ List.getElem_mem hi
  obtain ⟨x, hx, e⟩ := mem_leafNodes.1 hmem
  exact ⟨x, (freqAt_countFreq_ne_zero h x).1 hx,
    by rw [ha.leaves i hi, List.getD_eq_getElem _ _ hi, e]⟩

omit h in
theorem Arena.Linked.leaf_sorted {a : Arena} {total : Nat} (ha : a.Linked l total) {i j : Nat}
    (hij : i < j) (hj : j < l.length) : (nodeAt a.node i).sym < (nodeAt a.node j).sym := by
  have hi : i < l.length := hij.trans hj
  rw [ha.leaves i hi, ha.leaves j hj, List.getD_eq_getElem _ _ hi, List.getD_eq_getElem _ _ hj]
  exact List.pairwise_iff_getElem.1 (hl ▸ leafNodes_sorted _) i j hi hj hij

end Tree

/-- R153: the last node queued holds the whole sum. -/
theorem Arena.Linked.root_freq {l : List Node} {total : Nat} {a : Arena} (h : a.Linked l total)
    {r : Nat} (hq : a.queue = [r]) : (nodeAt a.node r).freq.toNat = total := by
  simpa [hq] using h.total

/-- Settles O25: the leaves are those of leaf initialisation, and the merge loop's invariant at one queued
node, the root, gives the links, the sums and the root's frequency. -/
theorem encodeBuildsTree : Obligations.EncodeBuildsTree := by
  unfold Obligations.EncodeBuildsTree
  intro s hready hlen
  have hlt : (inputBytes s).length < 2 ^ 32 := by rw [inputBytes_length]; exact s.inLen.isLt
  have hne : inputBytes s ≠ [] := by
    rw [← List.length_pos_iff, inputBytes_length]
    exact Nat.pos_of_ne_zero fun h0 => hlen (BitVec.eq_of_toNat_eq h0)
  obtain ⟨l, hl⟩ : ∃ l, l = leafNodes (countFreq (inputBytes s)).toList 0 := ⟨_, rfl⟩
  have hpos := leafNodes_length_pos hlt hl hne
  have hle := leafNodes_length_le_256 hl
  obtain ⟨a, hf, hlink, hqueue, hnext, htree⟩ := buildTree_linked hlt hl hne
  have hrun : encodeTree s = _ := (congrArg _ hready.queue).trans htree
  have hroot : (2 * l.length - 2) % 2 ^ 9 = 2 * l.length - 2 := Nat.mod_eq_of_lt (by omega)
  refine ⟨(encodeRun s).complete 0 0, l.length, exec_encode_run s hready.inLen,
    hl ▸ leafNodes_length hlt, hpos, hle, ?_⟩
  simp only [complete_nsym, complete_nodeCount, complete_root, complete_queue, complete_node,
    complete_freq, encodeRun_nsym, encodeRun_nodeCount, encodeRun_root, encodeRun_queue,
    encodeRun_node, encodeRun_freq, hrun, BitVec.toNat_ofNat, hroot]
  refine ⟨?_, Nat.mod_eq_of_lt (by omega), trivial, trivial, fun i hi => hlink.leaf hlt hl hi,
    fun i j hij hj => hlink.leaf_sorted hl hij hj,
    fun i hi hi' => ⟨hf.valid i (by omega), hlink.joins i hi (by omega)⟩,
    fun i hi => hf.blank i (by omega), ?_, fun c hc => ?_⟩
  · rw [distinctCount_eq, ← hl, Nat.mod_eq_of_lt (by omega)]
  · exact BitVec.eq_of_toNat_eq ((hlink.root_freq hqueue).trans (inputBytes_length s))
  · exact hnext ▸ hlink.parent c (by omega) (by simp [hqueue]; omega)

end Sys2Proof.Machine
end

section
/-! SUPPORT. The memory and register map as a host meets it: what is refused, the bytes of a word of
IN_MEM and OUT_MEM, and what reads, host steps and commands leave unchanged (R71 to R89). -/

namespace Sys2Proof.Machine

/-! ### Refused transactions -/

/-- A write is refused, in every PHASE, where the address reaches no place that takes it. -/
theorem hostWrite_refused {a v : Word} {s : State}
    (h : ∀ t, decodeAddr s.params a = some t → t.write v s = none) :
    hostWrite a v s = (.error, s) := by
  obtain e | ⟨t, s', ht, -, hw, -⟩ := hostWrite_cases a v s
  · exact e
  · simp [h t ht] at hw

theorem hostWrite_unmapped {a : Word} {s : State} (h : decodeAddr s.params a = none) (v : Word) :
    hostWrite a v s = (.error, s) :=
  hostWrite_refused fun t ht => by simp [h] at ht

/-- R23: ID and the registers from OUT_LEN on take no write. -/
theorem regOfWord_write_none {n : Nat} {r : Reg} (h : Reg.ofWord n = some r) (hn : n = 0 ∨ 6 ≤ n)
    (v : Word) (s : State) : (Target.reg r).write v s = none := by
  obtain rfl | hn := hn
  · cases h; rfl
  · have hle : n ≤ 14 := by
      by_contra hgt
      simp [regOfWord_reserved (show 15 ≤ n by omega)] at h
    interval_cases n <;> cases h <;> rfl

/-- R23, R71: no place at a read-only address takes a write. -/
theorem readOnly_write_none {p : Config.Params} (hp : p.wf = true) {a : Word} {t : Target}
    (h : ReadOnlyAddr p a.toNat) (ht : decodeAddr p a = some t) (v : Word) (s : State) :
    t.write v s = none := by
  obtain ⟨-, hin, -, -, -, -⟩ := params_caps hp
  have hm : a.toNat % 4 = 0 := by
    by_contra hm
    simp [decodeAddr_misaligned p hm] at ht
  have register : a.toNat < 0x100 → (a.toNat / 4 = 0 ∨ 6 ≤ a.toNat / 4) → t.write v s = none := by
    intro hlt hn
    simp (disch := omega) only [decodeAddr, if_neg, if_pos, Option.map_eq_some_iff] at ht
    obtain ⟨r, hr, rfl⟩ := ht
    exact regOfWord_write_none hr hn v s
  obtain h | h | h | h | h := h
  · exact register (by omega) (by omega)
  · exact register (by omega) (by omega)
  all_goals
    simp (disch := omega) only [decodeAddr, if_neg, if_pos] at ht
    cases ht
    rfl

/-- Settles O4: a misaligned address reaches no place. -/
theorem misalignedTransactionRefused : Obligations.MisalignedTransactionRefused := by
  unfold Obligations.MisalignedTransactionRefused
  intro s a v h
  have hd := decodeAddr_misaligned s.params h
  exact ⟨hostRead_refused hd, hostWrite_unmapped hd v⟩

/-- Settles O5: an unmapped address reaches no place, and a read-only one no place that takes a
write. -/
theorem unmappedAndReadOnlyRefused : Obligations.UnmappedAndReadOnlyRefused := by
  unfold Obligations.UnmappedAndReadOnlyRefused
  intro s a v hp
  refine ⟨fun hu => ?_, fun hr => hostWrite_refused fun t ht => readOnly_write_none hp hr ht v s⟩
  have hd := decodeAddr_unmapped hp hu
  exact ⟨hostRead_refused hd, hostWrite_unmapped hd v⟩

/-! ### Words of the byte memories (R76, R78, R79) -/

/-- Byte j of the word a memory stores is byte j of the value. -/
theorem inByte_setWord (m : ByteMem) (w : Nat) (v : Word) {j : Nat} (hj : j < 4) :
    inByte (m.setWord w v) (4 * w + j) = byteOfWord v j := by
  obtain rfl | rfl | rfl | rfl : j = 0 ∨ j = 1 ∨ j = 2 ∨ j = 3 := by omega
  all_goals simp (disch := omega) [ByteMem.setWord, inByte_set_other]

theorem inByte_setWord_other (m : ByteMem) {w i : Nat} (v : Word) (h : i < 4 * w ∨ 4 * w + 4 ≤ i) :
    inByte (m.setWord w v) i = inByte m i := by
  simp (disch := omega) only [ByteMem.setWord, inByte_set_other]

@[simp] theorem inWord_setWord (m : ByteMem) (w : Nat) (v : Word) :
    inWord (m.setWord w v) w = v := by
  have byte := fun j (hj : j < 4) => inByte_setWord m w v hj
  rw [inWord, byte 1 (by omega), byte 2 (by omega), byte 3 (by omega), ← Nat.add_zero (4 * w),
    byte 0 (by omega), wordOfBytes_byteOfWord]

/-- Settles O12: the write and the read reach the same word of IN_MEM. -/
theorem inWordWriteReadsBack : Obligations.InWordWriteReadsBack := by
  unfold Obligations.InWordWriteReadsBack
  intro s w v hp hs hw
  have hd := decodeAddr_inAddr s.params hp hw
  refine ⟨{ s with inMem := s.inMem.setWord w v }, hostWrite_idle hs hd rfl, rfl,
    fun j hj => inByte_setWord s.inMem w v hj, fun i hi => inByte_setWord_other s.inMem v hi, ?_⟩
  have read := hostRead_idle (s := { s with inMem := s.inMem.setWord w v }) hs hd
  rw [Target.value, inWord_setWord] at read
  exact read

/-- Settles O13: OUT_MEM is a place that answers its word and takes no write. -/
theorem outWordReadOnly : Obligations.OutWordReadOnly := by
  unfold Obligations.OutWordReadOnly
  intro s w v hp hw
  have hd := decodeAddr_outAddr s.params hp hw
  refine ⟨fun hs => ⟨outWord s.outMem w, hostRead_idle hs hd,
    fun j hj => wordOfBytes_byte (fun j => outByte s.outMem (4 * w + j)) hj⟩, ?_⟩
  refine hostWrite_refused fun t ht => ?_
  obtain rfl : Target.outMem w = t := Option.some.inj (hd.symm.trans ht)
  rfl

/-! ### What reads, host steps and commands leave unchanged -/

/-- R80: a read moves at most the draw counter. -/
theorem hostRead_frame (a : Word) (s : State) :
    (hostRead a s).2 = { s with draws := (hostRead a s).2.draws } := by
  obtain ⟨-, h⟩ | ⟨_, -, -, h⟩ | ⟨_, -, -, h⟩ := hostRead_cases a s <;> rw [h]

theorem hostRead_state_idle {s : State} (hs : s.phase = .idle) (a : Word) : (hostRead a s).2 = s := by
  cases hd : decodeAddr s.params a with
  | none => rw [hostRead_refused hd]
  | some t => rw [hostRead_idle hs hd]

/-- Settles O17: an idle read leaves the state it answered from. -/
theorem readsHaveNoSideEffect : Obligations.ReadsHaveNoSideEffect := by
  unfold Obligations.ReadsHaveNoSideEffect
  refine fun s a => ⟨hostRead_frame a s, fun hs => ?_⟩
  have hi := hostRead_state_idle hs a
  exact ⟨hi, by rw [hi]⟩

/-- R49: while BUSY a transaction moves at most the draw counter. -/
theorem perform_frame_busy {s : State} (hs : s.busy = true) (x : Transaction) :
    (perform x s).2 = { s with draws := (perform x s).2.draws } := by
  cases x with
  | read a => exact hostRead_frame a s
  | write a v => rw [perform, hostWrite_busy hs]

/-- Settles O47: a host step is nothing, a move of the host alone, or a transaction while BUSY. -/
theorem busyHostStepChangesNothing : Obligations.BusyHostStepChangesNothing := by
  unfold Obligations.BusyHostStepChangesNothing
  intro s c hc
  obtain h | ⟨h', h⟩ | ⟨x, h', -, h⟩ := hostStep_cases s <;> rw [h]
  rw [perform_frame_busy (busy_of_busy hc) x]

/-- Settles O43: none of the ways a command ends touches what the host alone writes. -/
theorem commandsNeverWriteInputs : Obligations.CommandsNeverWriteInputs := by
  unfold Obligations.CommandsNeverWriteInputs
  intro i s t h
  cases exec_completes h <;> simp

/-! ### A host's turn -/

theorem nextTurn_of_turns {s : State} {turn : Turn} {ts : List Turn} (h : s.turns = turn :: ts) :
    nextTurn s = (turn, { s with turns := ts }) := by
  simp [nextTurn, h]

/-- R112: a statement that stands for a transaction performs it, and the host takes its response. -/
theorem hostStep_of_transaction {s : State} {st : HostStmt} {x : Transaction} (hr : s.rst = false)
    (hst : s.host.prog[s.host.pos]? = some st) (hx : st.transaction? s.host = some x) :
    hostStep s =
      { (perform x s).2 with host := s.host.after st (some (perform x s).1) } := by
  simp [hostStep, hr, hst, hx]

/-- Settles O50: the turn taken from the schedule is the host's, at a write statement. -/
theorem hostTurnPerformsWrite : Obligations.HostTurnPerformsWrite := by
  unfold Obligations.HostTurnPerformsWrite
  intro s a v ts hp hr ht hst
  rw [step_eq s hp, nextTurn_of_turns ht, takeTurn]
  exact congrArg Host.Outcome.next
    (hostStep_of_transaction (s := { s with turns := ts }) (x := .write a v) hr hst rfl)

end Sys2Proof.Machine
end

section
/-! SUPPORT. The encodings a host meets: the command word against the opcode map, and the words of the
three tables (R100 to R107, R201). -/

namespace Sys2Proof.Machine

/-! ### The command word (R100 to R102) -/

/-- R101: every row of the map matches the whole word against its command's. -/
theorem opTable_row {r : OpRow} (hr : r ∈ opTable) :
    r.mask = BitVec.allOnes 32 ∧ r.pattern = encode r.instr := by
  have rows : ∀ r ∈ opTable, r.mask = BitVec.allOnes 32 ∧ r.pattern = encode r.instr := by decide
  exact rows r hr

theorem hits_iff {r : OpRow} (hr : r ∈ opTable) (w : Word) : r.hits w = true ↔ w = encode r.instr := by
  obtain ⟨hm, hp⟩ := opTable_row hr
  rw [OpRow.hits, hm, hp, BitVec.and_allOnes, beq_iff_eq]

@[simp] theorem decode_encode (i : Instr) : decode (encode i) = .ok i := by
  cases i <;> rfl

theorem encode_injective {i j : Instr} (h : encode i = encode j) : i = j := by
  have hd := congrArg decode h
  rw [decode_encode, decode_encode] at hd
  exact Except.ok.inj hd

/-- R101: the decoder answers a command only for that command's word. -/
theorem decode_ok_iff (w : Word) (i : Instr) : decode w = .ok i ↔ w = encode i := by
  refine ⟨fun h => ?_, fun h => h ▸ decode_encode i⟩
  unfold decode at h
  split at h
  case h_1 r hr =>
    cases h
    have hhit : r.hits w = true := by simpa using List.find?_some hr
    exact (hits_iff (List.mem_of_find?_eq_some hr) w).1 hhit
  case h_2 => split at h <;> cases h

/-- R102: the decoder refuses exactly the words that are no command's. -/
theorem decode_error_iff (w : Word) : (∃ e, decode w = .error e) ↔ ∀ i, w ≠ encode i := by
  simp only [ne_eq, ← decode_ok_iff]
  cases decode w <;> simp

/-- R101: no word hits two rows, because rows have different commands and commands different words. -/
theorem opTable_rows_disjoint :
    opTable.Pairwise fun r r' => ∀ w : Word, ¬ (r.hits w = true ∧ r'.hits w = true) := by
  have distinct : opTable.Pairwise fun r r' => r.instr ≠ r'.instr := by decide
  refine distinct.imp_of_mem fun hr hr' hne w ⟨h, h'⟩ => hne (encode_injective ?_)
  exact ((hits_iff hr w).1 h).symm.trans ((hits_iff hr' w).1 h')

/-- Settles O1: four words are the encodings of the commands, and the other two hit no row. -/
theorem opcodeMapWords : Obligations.OpcodeMapWords := by
  unfold Obligations.OpcodeMapWords
  exact ⟨decode_encode .nop, decode_encode .encode, decode_encode .decode, decode_encode .clear,
    rfl, rfl⟩

/-- Settles O2: every command is well formed, and its word hits its own row first. -/
theorem decodeOfEncodeIsCommand : Obligations.DecodeOfEncodeIsCommand :=
  fun i _ => decode_encode i

/-- Settles O3: a row hits its command's word and no other. -/
theorem onlyMapWordsAreLegal : Obligations.OnlyMapWordsAreLegal :=
  ⟨decode_ok_iff, fun w => (decode_error_iff w).symm, opTable_rows_disjoint⟩

/-! ### Words of FREQ_MEM and NODE_MEM (R106, R107) -/

theorem hostWrite_readOnly {a v : Word} {s : State} {t : Target}
    (h : decodeAddr s.params a = some t) (hw : t.write v s = none) :
    hostWrite a v s = (.error, s) :=
  hostWrite_refused fun t' ht => by
    obtain rfl : t = t' := Option.some.inj (h.symm.trans ht)
    exact hw

/-- Settles O8: the word reaches FREQ[s], a place that takes no write. -/
theorem freqWordsReadOnly : Obligations.FreqWordsReadOnly := by
  unfold Obligations.FreqWordsReadOnly
  intro s x v hs hx
  have hd := decodeAddr_freqAddr s.params hx
  exact ⟨hostRead_idle hs hd, hostWrite_readOnly hd rfl⟩

/-- R106: word 1 of a node, bit by bit. -/
theorem nodeWord_one_getLsbD (n : Node) (i : Nat) : (nodeWord n 1).getLsbD i =
    if i < 8 then n.sym.getLsbD i else if i < 30 then false else if i = 30 then n.leaf
    else if i = 31 then n.valid else false := by
  simp only [nodeWord, BitVec.getLsbD_append, BitVec.getLsbD_ofBool, BitVec.getLsbD_zero]
  rcases (by omega : i < 8 ∨ (8 ≤ i ∧ i < 30) ∨ i = 30 ∨ i = 31 ∨ 32 ≤ i) with h | h | rfl | rfl | h
  · simp [h]
  · simp (disch := omega) only [if_neg, if_pos]
  · simp
  · simp
  · simp (disch := omega) only [if_neg, decide_eq_false, Bool.false_and]

/-- R106: bits [29:8] of word 1 of a node are zero and bits [7:0] are SYM. -/
theorem nodeWord_one_fields (n : Node) :
    (nodeWord n 1).extractLsb' 8 22 = 0 ∧ (nodeWord n 1).extractLsb' 0 8 = n.sym := by
  constructor <;> refine BitVec.eq_of_getLsbD_eq fun i hi => ?_
  · simp (disch := omega) only [BitVec.getLsbD_extractLsb', nodeWord_one_getLsbD, if_neg, if_pos,
      Bool.and_false]
    exact BitVec.getLsbD_zero.symm
  · simp [nodeWord_one_getLsbD, hi]

/-- R106: a node index, zero-extended to a word. -/
theorem setWidth_index_fields (x : BitVec 9) :
    (x.setWidth 32).extractLsb' 0 9 = x ∧ (x.setWidth 32).extractLsb' 9 23 = 0 := by
  constructor <;> refine BitVec.eq_of_getLsbD_eq fun i hi => ?_
  · simp [hi]; omega
  · simp

@[simp] theorem nodeWord_blank (k : Nat) : nodeWord Node.blank k = 0 := by
  unfold nodeWord
  split <;> rfl

/-- R41, R71: index 511 is NIL and holds no entry, nor does any index above it. -/
theorem nodeAt_of_ge (v : Vector Node 511) {i : Nat} (h : 511 ≤ i) : nodeAt v i = Node.blank := by
  simp [nodeAt, h]

/-- R41: an entry that is not valid is all zero. -/
theorem State.ArenaLegal.blank_of_invalid {s : State} (h : s.ArenaLegal) {i : Nat}
    (hv : (nodeAt s.node i).valid = false) : nodeAt s.node i = Node.blank := by
  obtain hi | hi := Nat.lt_or_ge i 511
  · refine h.blankAbove i (Nat.le_of_not_lt fun hlt => ?_)
    simp [(h.validBelow i hi).2 hlt] at hv
  · exact nodeAt_of_ge s.node hi

/-- Settles O9: each word of the entry is a place that answers its word of R106 and takes no write. -/
theorem nodeEntryWords : Obligations.NodeEntryWords := by
  unfold Obligations.NodeEntryWords
  intro s i hs hi
  have read : ∀ k, k < 4 → hostRead (nodeAddr i k) s = (.okay (nodeWord (nodeAt s.node i) k), s) :=
    fun k hk => hostRead_idle hs (decodeAddr_nodeAddr s.params hi hk)
  obtain ⟨hzero, hsym⟩ := nodeWord_one_fields (nodeAt s.node i)
  obtain ⟨hleft, hleft'⟩ := setWidth_index_fields (nodeAt s.node i).left
  obtain ⟨hright, hright'⟩ := setWidth_index_fields (nodeAt s.node i).right
  refine ⟨⟨_, _, _, read 0 (by omega), read 1 (by omega), read 2 (by omega), read 3 (by omega),
    nodeWord_one_getLsbD _ 31, nodeWord_one_getLsbD _ 30, hzero, hsym, hleft, hleft', hright, hright'⟩,
    fun h k hk => ?_, fun k v hk => hostWrite_readOnly (decodeAddr_nodeAddr s.params hi hk) rfl⟩
  have hblank : nodeAt s.node i = Node.blank := by
    obtain rfl | ⟨ha, hv⟩ := h
    · exact nodeAt_of_ge s.node le_rfl
    · exact ha.blank_of_invalid hv
  rw [read k hk, hblank, nodeWord_blank]

/-! ### Words of CODE_MEM (R104, R105, R201) -/

/-- Settles O10: the words are those of R104, and bit j of the code is the bit of word 1 + j div 32. -/
theorem codeAssembledFromWords : Obligations.CodeAssembledFromWords := by
  unfold Obligations.CodeAssembledFromWords
  intro s x hs hx
  have hlen : codeWord (codeAt s.code x) 0 = BitVec.ofNat 32 (codeAt s.code x).len.toNat := by
    rw [codeWord, BitVec.ofNat_toNat]
  refine ⟨⟨codeWord (codeAt s.code x), fun k hk => hostRead_idle hs (decodeAddr_codeAddr _ hx hk), hlen,
    ?_⟩, fun k v hk hk' => ?_⟩
  · rw [codeWord, BitVec.toNat_setWidth_of_le (by decide), CodeEntry.code]
    refine List.map_congr_left fun j hj => ?_
    have hj : j < (codeAt s.code x).len.toNat := List.mem_range.1 hj
    rw [Nat.add_comm, codeWord_bit _ _ _ (by omega) (by omega), Nat.div_add_mod]
  · have hd := decodeAddr_codeAddr_reserved s.params hx hk hk'
    exact ⟨hostRead_refused hd, hostWrite_unmapped hd v⟩

/-- R104, R201: word 0 reads back as bits [7:0] of what was written. -/
theorem codeWord_setWord_zero (e : CodeEntry) (v : Word) :
    codeWord (e.setWord 0 v) 0 = BitVec.ofNat 32 (v.toNat % 256) := by
  apply BitVec.eq_of_toNat_eq
  simp [codeWord, CodeEntry.setWord]

/-- R104, R201: word 1 + m reads back as written. -/
theorem codeWord_setWord_succ (e : CodeEntry) {m : Nat} (hm : m < 8) (v : Word) :
    codeWord (e.setWord (m + 1) v) (m + 1) = v := by
  refine BitVec.eq_of_getLsbD_eq fun i hi => ?_
  have bit := codeWord_bit (e.setWord (m + 1) v) m (31 - i) hm (by omega)
  rw [setWord_bit e m v _ (by omega) hm, if_pos (by omega)] at bit
  rwa [show 31 - (31 - i) = i by omega, show 31 - (32 * m + (31 - i)) % 32 = i by omega] at bit

/-- R201: an idle write of a word of entry x changes that entry as `CodeEntry.setWord` says and nothing
else, and the word then reads as the entry's. -/
theorem hostWrite_codeAddr {s : State} (hs : s.phase = .idle) {x k : Nat} (hx : x < 256) (hk : k ≤ 8)
    (v : Word) : ∃ t, hostWrite (codeAddr x k) v s = (.okay 0, t) ∧ t = { s with code := t.code } ∧
      codeAt t.code x = (codeAt s.code x).setWord k v ∧
      (∀ y, y ≠ x → codeAt t.code y = codeAt s.code y) ∧
      hostRead (codeAddr x k) t = (.okay (codeWord ((codeAt s.code x).setWord k v) k), t) := by
  have hd := decodeAddr_codeAddr s.params hx hk
  obtain ⟨t, hwrite, ht⟩ : ∃ t, hostWrite (codeAddr x k) v s = (.okay 0, t) ∧
      t = { s with code := s.code.setIfInBounds x ((codeAt s.code x).setWord k v) } :=
    ⟨_, hostWrite_idle hs hd rfl, rfl⟩
  have same : codeAt t.code x = (codeAt s.code x).setWord k v := by
    rw [ht, codeAt_set, if_pos ⟨rfl, hx⟩]
  refine ⟨t, hwrite, by rw [ht], same, fun y hy => ?_, ?_⟩
  · rw [ht, codeAt_set, if_neg fun h => hy h.1.symm]
  · have read := hostRead_idle (s := t) (by rw [ht]; exact hs) (decodeAddr_codeAddr t.params hx hk)
    rwa [Target.value, same] at read

/-- Settles O11: the entry after the write, field by field. -/
theorem codeWordWrites : Obligations.CodeWordWrites := by
  unfold Obligations.CodeWordWrites
  intro s x v hs hx
  refine ⟨?_, fun m hm => ?_⟩
  · obtain ⟨t, hw, hframe, hsame, hother, hread⟩ := hostWrite_codeAddr hs hx (Nat.zero_le 8) v
    rw [codeWord_setWord_zero] at hread
    exact ⟨t, hw, hframe, by rw [hsame]; rfl, by rw [hsame]; rfl, hother, hread⟩
  · obtain ⟨t, hw, hframe, hsame, hother, hread⟩ := hostWrite_codeAddr hs hx (show m + 1 ≤ 8 by omega) v
    rw [Nat.add_comm 1 m]
    rw [codeWord_setWord_succ _ hm] at hread
    refine ⟨t, hw, hframe, by rw [hsame]; rfl, fun j hj => ?_, hother, hread⟩
    rw [hsame, setWord_bit _ m v j hj hm]

end Sys2Proof.Machine
end

section
/-! SUPPORT. The frequency counter: NSYM counts the entries of FREQ that are not 0 (R130, R131). -/

namespace Sys2Proof.Machine

theorem toList_eq_map_freqAt (f : Vector Word 256) : f.toList = (List.range 256).map (freqAt f) := by
  refine List.ext_getElem (by simp) fun i hi _ => ?_
  have hi : i < 256 := by simpa using hi
  simp [freqAt, hi]

theorem distinctCount_eq_countP (f : Vector Word 256) :
    distinctCount f = (List.range 256).countP fun x => freqAt f x != 0 := by
  rw [distinctCount, ← List.countP_eq_length_filter, toList_eq_map_freqAt, List.countP_map]
  exact List.countP_congr fun x _ => by simp

/-- Settles O23: FREQ is the table counted from zero, in which no count wraps, and NSYM has room for all
256 entries. -/
theorem encodeCountsSymbols : Obligations.EncodeCountsSymbols := by
  unfold Obligations.EncodeCountsSymbols
  intro s _ hin
  have hlen : (inputBytes s).length < 2 ^ 32 := by rw [inputBytes_length]; exact s.inLen.isLt
  have hnsym := distinctCount_le (countFreq (inputBytes s))
  refine ⟨(encodeRun s).complete 0 0, exec_encode_run s hin, fun x => ?_, ?_⟩
  · rw [complete_freq, encodeRun_freq, freqAt_countFreq_toNat hlen]
  · rw [complete_nsym, complete_freq, encodeRun_nsym, encodeRun_freq, BitVec.toNat_ofNat,
      Nat.mod_eq_of_lt (by omega), distinctCount_eq_countP]

end Sys2Proof.Machine
end

section
/-! SUPPORT. The priority queue takes the smallest key, and so every merge joins the two smallest nodes
still queued (R140, R142, R151). -/

namespace Sys2Proof.Machine

/-! ### The key order (R140) -/

theorem keyLt_iff (node : Vector Node 511) (i j : Nat) : keyLt node i j = true ↔ KeyBefore node i j := by
  simp [keyLt, KeyBefore]

theorem KeyBefore.asymm {node : Vector Node 511} {i j : Nat} (h : KeyBefore node i j) :
    ¬ KeyBefore node j i := by
  unfold KeyBefore at *
  omega

theorem not_keyBefore_trans {node : Vector Node 511} {i j m : Nat} (h : ¬ KeyBefore node i j)
    (h' : ¬ KeyBefore node j m) : ¬ KeyBefore node i m := by
  unfold KeyBefore at *
  omega

/-- Different nodes have different keys. -/
theorem keyBefore_of_not {node : Vector Node 511} {i j : Nat} (h : ¬ KeyBefore node j i) (hij : i ≠ j) :
    KeyBefore node i j := by
  unfold KeyBefore at *
  omega

theorem KeyBefore.congr {node node' : Vector Node 511} {i j : Nat} (h : KeyBefore node i j)
    (hi : nodeAt node' i = nodeAt node i) (hj : nodeAt node' j = nodeAt node j) :
    KeyBefore node' i j := by
  unfold KeyBefore
  rwa [hi, hj]

/-! ### Extraction (R142) -/

/-- No member of a queue is before its minimum. -/
theorem pqMin_not_keyBefore {node : Vector Node 511} {q : List Nat} {m : Nat}
    (h : pqMin node q = some m) : ∀ j ∈ q, ¬ KeyBefore node j m := by
  have irrefl : ∀ i, ¬ KeyBefore node i i := fun _ hi => hi.asymm hi
  induction q generalizing m with
  | nil => cases h
  | cons i r ih =>
    cases hr : pqMin node r with
    | none =>
      have hnil : r = [] := by
        by_contra hne
        obtain ⟨_, -, e⟩ := pqMin_answers node hne
        simp [hr] at e
      obtain rfl : i = m := by simpa [pqMin, hr] using h
      simpa [hnil] using irrefl i
    | some m' =>
      have hrest := ih hr
      rw [List.forall_mem_cons]
      by_cases hk : KeyBefore node m' i
      · obtain rfl : m' = m := by simpa [pqMin, hr, keyLt_iff, hk] using h
        exact ⟨hk.asymm, hrest⟩
      · obtain rfl : i = m := by simpa [pqMin, hr, keyLt_iff, hk] using h
        exact ⟨irrefl i, fun j hj => not_keyBefore_trans (hrest j hj) hk⟩

theorem pqExtractMin_eq_some {node : Vector Node 511} {q q' : List Nat} {m : Nat} :
    pqExtractMin node q = some (m, q') ↔ pqMin node q = some m ∧ q' = q.erase m := by
  rw [pqExtractMin, Option.map_eq_some_iff]
  constructor
  · rintro ⟨_, hm, ⟨⟩⟩
    exact ⟨hm, rfl⟩
  · rintro ⟨hm, rfl⟩
    exact ⟨m, hm, rfl⟩

/-- Settles O24: a queue that is not empty answers with its minimum; no member is before that, so every
other member is after it. -/
theorem extractMinTakesSmallestKey : Obligations.ExtractMinTakesSmallestKey := by
  unfold Obligations.ExtractMinTakesSmallestKey
  refine fun node q => ⟨fun hq => ?_, fun m q' h => ?_⟩
  · obtain ⟨m, -, e⟩ := pqExtractMin_answers node hq
    exact ⟨m, e⟩
  · obtain ⟨hm, rfl⟩ := pqExtractMin_eq_some.1 h
    have hq : q ≠ [] := by rintro rfl; cases hm
    obtain ⟨m', hmem, e⟩ := pqMin_answers node hq
    obtain rfl : m' = m := Option.some.inj (e.symm.trans hm)
    exact ⟨hmem, rfl, fun j hj hne => keyBefore_of_not (pqMin_not_keyBefore hm j hj) hne.symm⟩

/-- A queue without repetitions splits into the extracted member and the members after it. -/
theorem pqExtractMin_split (node : Vector Node 511) {q : List Nat} (hnd : q.Nodup) (h : q ≠ []) :
    ∃ m q', pqExtractMin node q = some (m, q') ∧ q.Perm (m :: q') ∧ ∀ j ∈ q', KeyBefore node m j := by
  obtain ⟨m, hm, e⟩ := pqExtractMin_answers node h
  obtain ⟨-, -, hmin⟩ := (extractMinTakesSmallestKey node q).2 m _ e
  refine ⟨m, q.erase m, e, List.perm_cons_erase hm, fun j hj => ?_⟩
  obtain ⟨hne, hj⟩ := hnd.mem_erase_iff.1 hj
  exact hmin j hj hne

/-! ### Merging (R151) -/

/-- A merge joins the smallest node queued and the next smallest, in this order. -/
theorem mergeOnce_joins_smallest {a : Arena} (hnd : a.queue.Nodup) (h : 1 < pqSize a.queue) :
    ∃ x y q, a.queue.Perm (x :: y :: q) ∧ mergeOnce a = a.merged x y q ∧
      KeyBefore a.node x y ∧ ∀ j ∈ q, KeyBefore a.node y j := by
  have hq : a.queue ≠ [] := by rintro e; simp [pqSize, e] at h
  obtain ⟨x, q, ex, hx, hxmin⟩ := pqExtractMin_split a.node hnd hq
  have hq' : q ≠ [] := by
    rintro rfl
    simp [pqSize, hx.length_eq] at h
  obtain ⟨y, q', ey, hy, hymin⟩ := pqExtractMin_split a.node (hx.nodup_iff.1 hnd).of_cons hq'
  exact ⟨x, y, q', hx.trans (hy.cons x), by simp [mergeOnce, ex, ey, Arena.merged],
    hxmin y (hy.mem_iff.2 List.mem_cons_self), hymin⟩

/-- The children of node `i` are, the smaller on the left, the two smallest of the nodes below `i` that
none of the internal nodes `k`, …, `i - 1` has for a child. -/
def JoinsSmallest (node : Vector Node 511) (k i : Nat) : Prop :=
  KeyBefore node (nodeAt node i).left.toNat (nodeAt node i).right.toNat ∧
  ∀ j, j < i → (∀ i', k ≤ i' → i' ≤ i → ¬ IsChild node j i') →
    KeyBefore node (nodeAt node i).right.toNat j

/-- Like joining two nodes, joining the smallest looks at nothing from `i + 1` up. -/
theorem JoinsSmallest.congr {node node' : Vector Node 511} {k i : Nat} (h : JoinsSmallest node k i)
    (hi : JoinsTwo node i) (e : ∀ j ≤ i, nodeAt node' j = nodeAt node j) : JoinsSmallest node' k i := by
  obtain ⟨-, -, hleft, hright, -⟩ := hi
  obtain ⟨horder, hmin⟩ := h
  have e' : ∀ {j}, j < i → nodeAt node' j = nodeAt node j := fun hj => e _ (Nat.le_of_lt hj)
  unfold JoinsSmallest
  rw [e i (Nat.le_refl i)]
  refine ⟨horder.congr (e' hleft) (e' hright), fun j hj hun => ?_⟩
  refine (hmin j hj fun i' hk hi' hc => hun i' hk hi' ?_).congr (e' hright) (e' hj)
  rwa [IsChild, e i' hi']

/-- The merge loop's invariant with the order of the merges in it: the nodes are linked, and every
internal node joins the smallest of its time. -/
structure Arena.Greedy (l : List Node) (total : Nat) (a : Arena) : Prop where
  forest : a.Forest l.length
  linked : a.Linked l total
  smallest : ∀ i, l.length ≤ i → i < a.next → JoinsSmallest a.node l.length i

section Merge
variable {l : List Node} {total : Nat} {a : Arena} {x y : Nat} {q : List Nat}
variable (h : a.Greedy l total) (hl : l.length ≤ 256)
include h hl

/-- The new node joins the smallest: a node that no internal node has for a child is still queued. -/
theorem Arena.Greedy.joinsSmallest_merged (hp : a.queue.Perm (x :: y :: q))
    (hxy : KeyBefore a.node x y) (hy : ∀ j ∈ q, KeyBefore a.node y j) :
    JoinsSmallest (a.merged x y q).node l.length a.next := by
  have hroom := h.forest.room hl hp
  obtain ⟨hxlt, hylt, -⟩ := h.forest.taken hp
  have hold : ∀ {j}, j < a.next → nodeAt (a.merged x y q).node j = nodeAt a.node j :=
    Arena.nodeAt_merged_of_lt
  have hnew := h.forest.nodeAt_merged hl hp a.next
  rw [if_pos rfl] at hnew
  have hleft : (nodeAt (a.merged x y q).node a.next).left.toNat = x := by
    rw [hnew]
    exact Nat.mod_eq_of_lt (by omega)
  have hright : (nodeAt (a.merged x y q).node a.next).right.toNat = y := by
    rw [hnew]
    exact Nat.mod_eq_of_lt (by omega)
  unfold JoinsSmallest
  rw [hleft, hright]
  refine ⟨hxy.congr (hold hxlt) (hold hylt), fun j hj hun => ?_⟩
  have hqueued : j ∈ a.queue := by
    by_contra hjq
    obtain ⟨i, ⟨hk, hi, hc⟩, -⟩ := h.linked.parent j hj hjq
    exact hun i hk (Nat.le_of_lt hi) ((isChild_merged_old j hi).2 hc)
  have htaken : ¬ (x = j ∨ y = j) := fun hc =>
    hun a.next h.forest.grown (Nat.le_refl _) ((isChild_merged_new h.forest hp hl j).2 hc)
  have hjq : j ∈ q := by
    have := hp.mem_iff.1 hqueued
    simp only [List.mem_cons] at this
    tauto
  exact (hy j hjq).congr (hold hylt) (hold hj)

theorem Arena.Greedy.of_mergeOnce (ht : total < 2 ^ 32) (hq : 1 < pqSize a.queue) :
    (mergeOnce a).Greedy l total := by
  obtain ⟨x, y, q, hp, e, hxy, hy⟩ := mergeOnce_joins_smallest h.forest.nodup hq
  rw [e]
  refine ⟨h.forest.merged hl hp, h.linked.merged h.forest hp hl ht, fun i hk hi => ?_⟩
  obtain hi | rfl := Arena.lt_merged_next hi
  · exact (h.smallest i hk hi).congr (h.linked.joins i hk hi)
      fun j hj => Arena.nodeAt_merged_of_lt (by omega)
  · exact h.joinsSmallest_merged hl hp hxy hy

theorem Arena.Greedy.of_mergeLoop (ht : total < 2 ^ 32) (r : Nat) : (mergeLoop r a).Greedy l total := by
  induction r generalizing a with
  | zero => exact h
  | succ r ih =>
    rw [mergeLoop]
    split_ifs with hq
    · exact ih (h.of_mergeOnce hl ht hq)
    · exact h

end Merge

/-- Before the first merge there is no internal node. -/
theorem Arena.Lists.greedy {l : List Node} {a : Arena} (h : a.Lists l) (hl : l ≠ [])
    (hv : ∀ n ∈ l, n.valid = true) : a.Greedy l (l.map fun n => n.freq.toNat).sum where
  forest := h.forest hl hv
  linked := h.linked
  smallest _ hk hi := absurd (h.next ▸ hi) (Nat.not_lt.2 hk)

/-! ### The tree of an input -/

theorem takeRoot_node (a : Arena) : (takeRoot a).node = a.node := by
  unfold takeRoot
  split <;> rfl

/-- In the tree of a non-empty sequence every internal node joins the smallest. -/
theorem buildTree_joinsSmallest {xs : List Byte} (h : xs.length < 2 ^ 32) (hne : xs ≠ []) {i : Nat}
    (hk : xs.dedup.length ≤ i) (hi : (nodeAt (buildTree (countFreq xs) []).node i).valid = true) :
    JoinsSmallest (buildTree (countFreq xs) []).node xs.dedup.length i := by
  have hleaf := leafInit_lists (countFreq xs)
  have hpos := leafNodes_length_pos h rfl hne
  have hn : (leafInit (countFreq xs) []).next ≠ 0 := by rw [hleaf.next]; omega
  have hgreedy := (hleaf.greedy (List.length_pos_iff.1 hpos) fun _ => leafNodes_valid).of_mergeLoop
    (leafNodes_length_le_256 rfl) (by rwa [leafNodes_freq_sum h])
    (pqSize (leafInit (countFreq xs) []).queue)
  simp only [buildTree, if_neg hn, takeRoot_node] at hi ⊢
  rw [← leafNodes_length h] at hk ⊢
  refine hgreedy.smallest i hk (Nat.lt_of_not_le fun hge => ?_)
  rw [hgreedy.forest.blank i hge] at hi
  cases hi

/-- Settles O26: the tree has the shape O25 gives it, and its nodes from NSYM to NODE_COUNT are the
internal ones, each of which joined the smallest. -/
theorem encodeMergesTwoSmallest : Obligations.EncodeMergesTwoSmallest := by
  unfold Obligations.EncodeMergesTwoSmallest
  intro s hready hlen
  have hlt : (inputBytes s).length < 2 ^ 32 := by rw [inputBytes_length]; exact s.inLen.isLt
  have hne : inputBytes s ≠ [] := by
    rw [← List.length_pos_iff, inputBytes_length]
    exact Nat.pos_of_ne_zero fun h0 => hlen (BitVec.eq_of_toNat_eq h0)
  obtain ⟨t, k, hexec, hk, -, -, hnsym, hcount, -, -, -, -, hinternal, -⟩ :=
    encodeBuildsTree s hready hlen
  have hnode : t.node = (buildTree (countFreq (inputBytes s)) []).node := by
    have hrun := hexec.symm.trans (exec_encode_run s hready.inLen)
    rw [Host.Outcome.next.inj hrun, complete_node, encodeRun_node, encodeTree, hready.queue]
  refine ⟨t, hexec, fun i hi hi' => ?_⟩
  rw [hnsym] at hi ⊢
  rw [hcount] at hi'
  have hvalid := (hinternal i hi hi').1
  rw [hnode] at hvalid ⊢
  subst hk
  exact buildTree_joinsSmallest hlt hne hi hvalid

end Sys2Proof.Machine
end

section
/-! SUPPORT. ENCODE at the two smallest inputs: no symbol at all, and one distinct symbol (R154, R155,
R162). -/

namespace Sys2Proof.Machine

/-! ### The code table -/

/-- R155: no tree, no codes. -/
theorem generateCodes_of_count_zero {t : Tree} (h : t.count = 0) : generateCodes t = emptyCodes :=
  if_pos h

/-- R162: the code of a tree whose root is a leaf is "0". -/
theorem generateCodes_of_leaf {t : Tree} (hc : t.count ≠ 0)
    (hl : (nodeAt t.node t.root.toNat).leaf = true) :
    generateCodes t = storeCode emptyCodes (nodeAt t.node t.root.toNat).sym [false] := by
  rw [generateCodes, if_neg hc, if_pos hl]

theorem codeAt_storeCode (c : Vector CodeEntry 256) (x y : Byte) (p : BitString) :
    codeAt (storeCode c x p) y.toNat = if x = y then CodeEntry.store p else codeAt c y.toNat := by
  have hx : x.toNat < 256 := x.isLt
  rw [storeCode, codeAt_set]
  simp [hx, BitVec.toNat_inj]

theorem code_toList_eq_map_codeAt (c : Vector CodeEntry 256) :
    c.toList = (List.range 256).map (codeAt c) := by
  refine List.ext_getElem (by simp) fun i hi _ => ?_
  have hi : i < 256 := by simpa using hi
  simp [codeAt, hi]

theorem foldl_max_le_iff {α : Type} (f : α → Nat) (l : List α) (m n : Nat) :
    l.foldl (fun m e => max m (f e)) m ≤ n ↔ m ≤ n ∧ ∀ e ∈ l, f e ≤ n := by
  induction l generalizing m with
  | nil => simp
  | cons e l ih => simp [ih, and_assoc]

/-- R163: CG_MAXLEN is the least bound of the code lengths. -/
theorem maxLen_le_iff (c : Vector CodeEntry 256) (n : Nat) :
    maxLen c ≤ n ↔ ∀ x : Byte, (codeAt c x.toNat).len.toNat ≤ n := by
  rw [maxLen, foldl_max_le_iff, code_toList_eq_map_codeAt]
  simp only [Nat.zero_le, true_and, List.forall_mem_map, List.mem_range]
  refine ⟨fun h x => h _ x.isLt, fun h i hi => ?_⟩
  have := h (BitVec.ofNat 8 i)
  rwa [BitVec.toNat_ofNat, Nat.mod_eq_of_lt hi] at this

theorem maxLen_emptyCodes : maxLen emptyCodes = 0 :=
  Nat.le_zero.1 ((maxLen_le_iff _ _).2 fun x => by simp [CodeEntry.blank])

/-- A table of one code is as long as that code. -/
theorem maxLen_storeCode_emptyCodes (x : Byte) {p : BitString} (hp : p.length ≤ 255) :
    maxLen (storeCode emptyCodes x p) = p.length := by
  refine Nat.le_antisymm ((maxLen_le_iff _ _).2 fun y => ?_) ?_
  · rw [codeAt_storeCode]
    split_ifs
    · exact (store_len p hp).le
    · simp [CodeEntry.blank]
  · have := (maxLen_le_iff (storeCode emptyCodes x p) _).1 (Nat.le_refl _) x
    rwa [codeAt_storeCode, if_pos rfl, store_len p hp] at this

/-! ### The bit position (R170) -/

theorem packCode_bp (p : Packer) (bits : BitString) : (packCode p bits).bp = p.bp + bits.length := by
  induction bits generalizing p with
  | nil => rfl
  | cons b bits ih =>
    have hstep : packCode p (b :: bits) =
        packCode { mem := putBit p.mem p.bp b, bp := p.bp + 1 } bits := rfl
    rw [hstep, ih, List.length_cons, Nat.add_right_comm, Nat.add_assoc]

/-- The packer stops at the length of the concatenated codes. -/
theorem packInput_bp (c : Vector CodeEntry 256) (xs : List Byte) (m : ByteMem) :
    (packInput c xs m).bp = (streamOf c xs).length := by
  suffices ∀ p : Packer, (xs.foldl (fun p s => packCode p (codeAt c s.toNat).code) p).bp =
      p.bp + (streamOf c xs).length from (this _).trans (Nat.zero_add _)
  induction xs with
  | nil => exact fun p => rfl
  | cons x xs ih =>
    intro p
    have hcons : streamOf c (x :: xs) = (codeAt c x.toNat).code ++ streamOf c xs := rfl
    rw [List.foldl_cons, ih, packCode_bp, hcons, List.length_append, Nat.add_assoc]

/-- With codes of one bit each, the stream has a bit for each byte. -/
theorem streamOf_length_of_one_bit {c : Vector CodeEntry 256} {xs : List Byte}
    (h : ∀ b ∈ xs, (codeOf c b).length = 1) : (streamOf c xs).length = xs.length := by
  rw [streamOf, List.length_flatMap, List.map_congr_left h]
  simp

/-! ### The empty input (R155) -/

theorem leafNodes_of_zero : leafNodes (Vector.replicate 256 (0 : Word)).toList 0 = [] := by
  refine List.eq_nil_iff_forall_not_mem.2 fun n hn => ?_
  obtain ⟨x, hx, -⟩ := mem_leafNodes.1 hn
  exact hx (freqAt_zero _)

/-- Without counts there is no node, and the queue is left as it was found. -/
theorem buildTree_of_zero (q : List Nat) : buildTree (Vector.replicate 256 0) q =
    { node := Vector.replicate 511 Node.blank, queue := q, root := Config.nil, count := 0 } := by
  have hinit : leafInit (Vector.replicate 256 0) q =
      { node := Vector.replicate 511 Node.blank, queue := q, next := 0 } := by
    rw [leafInit, addLeaves_eq_foldl, leafNodes_of_zero, List.foldl_nil]
  simp only [buildTree, hinit, if_true]

theorem inputBytes_of_inLen_zero {s : State} (h : s.inLen = 0) : inputBytes s = [] :=
  List.length_eq_zero_iff.1 ((inputBytes_length s).trans (congrArg BitVec.toNat h))

theorem countFreq_nil : countFreq [] = Vector.replicate 256 0 := rfl

theorem packInput_nil (c : Vector CodeEntry 256) (m : ByteMem) :
    packInput c [] m = { mem := m, bp := 0 } := rfl

theorem distinctCount_of_zero : distinctCount (Vector.replicate 256 0) = 0 :=
  (distinctCount_eq _).trans (congrArg List.length leafNodes_of_zero)

/-- Every component's result on the empty input, and the frame of the run. -/
theorem encodeRun_of_inLen_zero {s : State} (h : s.inLen = 0) : encodeRun s = { s with
    freq := Vector.replicate 256 0, node := Vector.replicate 511 Node.blank, code := emptyCodes,
    nsym := 0, root := Config.nil, nodeCount := 0, maxCodeLen := 0, bitLen := 0, outLen := 0,
    lastBits := 0 } := by
  simp only [encodeRun, inputBytes_of_inLen_zero h, countFreq_nil, distinctCount_of_zero,
    buildTree_of_zero, generateCodes_of_count_zero, maxLen_emptyCodes, packInput_nil]
  rfl

/-- Settles O29: each component's result on no input is its empty one, and the packer writes nothing. -/
theorem encodeEmptyInput : Obligations.EncodeEmptyInput := by
  unfold Obligations.EncodeEmptyInput
  intro s h
  have hin : s.inLen.toNat ≤ s.params.inCap := by rw [h]; exact Nat.zero_le _
  refine ⟨(encodeRun s).complete 0 0, exec_encode_run s hin, ?_⟩
  rw [encodeRun_of_inLen_zero h]
  exact ⟨fun x => ⟨freqAt_zero x, codeAt_emptyCodes x⟩, nodeAt_blank, rfl⟩

/-! ### One distinct symbol (R154, R162) -/

theorem dedup_length_of_constant {xs : List Byte} {x : Byte} (hne : xs ≠ [])
    (h : ∀ b ∈ xs, b = x) : xs.dedup.length = 1 := by
  have hrep : xs = List.replicate xs.length x := List.eq_replicate_of_mem h
  rw [hrep, List.replicate_dedup (by simpa using hne), List.length_singleton]

/-- R154: the tree ENCODE builds of one distinct symbol is the leaf of that symbol. -/
theorem encodeRun_tree_of_constant {s : State} {x : Byte} (hready : EncodeReady s)
    (hlen : s.inLen ≠ 0) (h : ∀ b ∈ inputBytes s, b = x) :
    (encodeRun s).nsym = 1 ∧ (encodeRun s).root = 0 ∧ (encodeRun s).nodeCount = 1 ∧
    nodeAt (encodeRun s).node 0 = Node.mkLeaf x s.inLen ∧
    ∀ i, 1 ≤ i → nodeAt (encodeRun s).node i = Node.blank := by
  obtain ⟨t, k, hexec, hk, hpos, -, hnsym, hcount, hroot, -, hleaf, -, -, hblank, hfreq, -⟩ :=
    encodeBuildsTree s hready hlen
  obtain rfl := Host.Outcome.next.inj (hexec.symm.trans (exec_encode_run s hready.inLen))
  have hne : inputBytes s ≠ [] := by
    intro e
    simp [e] at hk
    omega
  obtain rfl : k = 1 := hk.trans (dedup_length_of_constant hne h)
  obtain ⟨y, hy, hnode⟩ := hleaf 0 Nat.one_pos
  rw [h y hy] at hnode
  rw [hroot, hnode] at hfreq
  exact ⟨BitVec.eq_of_toNat_eq hnsym, BitVec.eq_of_toNat_eq hroot, BitVec.eq_of_toNat_eq hcount,
    hnode.trans (congrArg (Node.mkLeaf x) hfreq), hblank⟩

/-- Settles O28: the tree is O25's at k = 1, its root a leaf, so the table stores "0" alone and the
packer emits one bit a byte. -/
theorem encodeSingleSymbol : Obligations.EncodeSingleSymbol := by
  unfold Obligations.EncodeSingleSymbol
  intro s x hready hlen h
  obtain ⟨hnsym, hroot, hcount, hnode, hblank⟩ := encodeRun_tree_of_constant hready hlen h
  have hcodes : encodeCodes s = storeCode emptyCodes x [false] := by
    simp only [encodeRun_root, encodeRun_nodeCount, encodeRun_node] at hroot hcount hnode
    have hleaf : nodeAt (encodeTree s).node (encodeTree s).root.toNat = Node.mkLeaf x s.inLen := by
      rw [hroot]
      exact hnode
    rw [encodeCodes, generateCodes_of_leaf (by rw [hcount]; decide) (by rw [hleaf]; rfl), hleaf]
    rfl
  have hx : codeAt (encodeCodes s) x.toNat = CodeEntry.store [false] := by
    rw [hcodes, codeAt_storeCode, if_pos rfl]
  have hcode : codeOf (encodeCodes s) x = [false] := by
    rw [codeOf, hx, store_code _ (by decide)]
  have hbp : (encodePacked s).bp = s.inLen.toNat := by
    rw [packInput_bp, streamOf_length_of_one_bit fun b hb => by rw [h b hb, hcode]; rfl,
      inputBytes_length]
  refine ⟨(encodeRun s).complete 0 0, exec_encode_run s hready.inLen, hnsym, hroot, hcount, hnode,
    hblank, hx, hcode, fun y hy => ?_, ?_, ?_⟩
  · rw [complete_code, encodeRun_code, hcodes, codeAt_storeCode, if_neg hy.symm, codeAt_emptyCodes]
  · rw [complete_maxCodeLen, encodeRun_maxCodeLen, hcodes, maxLen_storeCode_emptyCodes x (by decide)]
    rfl
  · rw [complete_bitLen, encodeRun_bitLen, hbp, BitVec.ofNat_toNat, BitVec.setWidth_eq]

end Sys2Proof.Machine
end

section
/-! SUPPORT. The code table generator: the codes ENCODE stores are the paths of its tree, so no code
is the start of another, and MAX_CODE_LEN is the longest length (R160 to R165). -/

namespace Sys2Proof.Machine

/-! ### The longest code (R163) -/

theorem maxLen_eq_longestLen (c : Vector CodeEntry 256) : maxLen c = longestLen c := by
  rw [maxLen, longestLen, code_toList_eq_map_codeAt, List.foldl_map, ← List.foldl_eq_foldr,
    List.foldl_map]

theorem maxLen_le_255 (c : Vector CodeEntry 256) : maxLen c ≤ 255 :=
  (maxLen_le_iff c 255).2 fun x => Nat.le_of_lt_succ (codeAt c x.toNat).len.isLt

/-- Settles O30: the two maxima are of the same lengths, and a length fits the eight bits of
MAX_CODE_LEN. -/
theorem encodeRecordsLongestCode : Obligations.EncodeRecordsLongestCode := by
  unfold Obligations.EncodeRecordsLongestCode
  intro s hin
  have hle := maxLen_le_255 (encodeCodes s)
  refine ⟨(encodeRun s).complete 0 0, exec_encode_run s hin, ?_⟩
  rw [complete_maxCodeLen, complete_code, encodeRun_maxCodeLen, encodeRun_code, BitVec.toNat_ofNat,
    Nat.mod_eq_of_lt (by omega), maxLen_eq_longestLen]

/-! ### Paths (R161) -/

theorem leadsTo_append {node : Vector Node 511} {i j : Nat} {p q : BitString} :
    LeadsTo node i (p ++ q) j ↔ ∃ m, LeadsTo node i p m ∧ LeadsTo node m q j := by
  induction p generalizing i with
  | nil => simp [LeadsTo]
  | cons b p ih => simp [LeadsTo, ih, and_assoc]

/-- A bit string leads from a node to one node at most. -/
theorem LeadsTo.unique {node : Vector Node 511} {i j j' : Nat} {p : BitString}
    (h : LeadsTo node i p j) (h' : LeadsTo node i p j') : j = j' := by
  induction p generalizing i with
  | nil => exact h.symm.trans h'
  | cons b p ih =>
    obtain ⟨-, -, h⟩ := h
    obtain ⟨-, -, h'⟩ := h'
    exact ih h h'

/-- No path goes on from a leaf. -/
theorem LeadsTo.eq_nil_of_leaf {node : Vector Node 511} {i j : Nat} {p : BitString}
    (h : LeadsTo node i p j) (hl : (nodeAt node i).leaf = true) : p = [] := by
  cases p with
  | nil => rfl
  | cons b p =>
    obtain ⟨-, hinner, -⟩ := h
    simp [hl] at hinner

/-- The bit string `p` leads from node `i` to a leaf of symbol `x`. -/
def LeafPath (node : Vector Node 511) (i : Nat) (p : BitString) (x : Byte) : Prop :=
  ∃ j, (nodeAt node j).leaf = true ∧ (nodeAt node j).sym = x ∧ LeadsTo node i p j

theorem leafPath_of_leaf {node : Vector Node 511} {i : Nat} (hl : (nodeAt node i).leaf = true)
    (p : BitString) (x : Byte) : LeafPath node i p x ↔ p = [] ∧ (nodeAt node i).sym = x := by
  constructor
  · rintro ⟨j, -, hx, hp⟩
    obtain rfl := hp.eq_nil_of_leaf hl
    obtain rfl : i = j := hp
    exact ⟨rfl, hx⟩
  · rintro ⟨rfl, hx⟩
    exact ⟨i, hl, hx, rfl⟩

/-- A path from an internal node to a leaf starts with a step to one of its children. -/
theorem leafPath_of_inner {node : Vector Node 511} {i : Nat} (hv : (nodeAt node i).valid = true)
    (hl : (nodeAt node i).leaf = false) (p : BitString) (x : Byte) : LeafPath node i p x ↔
      (∃ q, p = false :: q ∧ LeafPath node (nodeAt node i).left.toNat q x) ∨
      (∃ q, p = true :: q ∧ LeafPath node (nodeAt node i).right.toNat q x) := by
  cases p with
  | nil =>
    have : ¬ LeafPath node i [] x := by
      rintro ⟨j, hj, -, rfl⟩
      simp [hl] at hj
    simpa
  | cons b p => cases b <;> simp [LeafPath, LeadsTo, hv, hl]

/-- No path to a leaf goes on to a leaf of another symbol. -/
theorem LeafPath.eq_of_prefix {node : Vector Node 511} {i : Nat} {p q : BitString} {x y : Byte}
    (hp : LeafPath node i p x) (hq : LeafPath node i q y) (h : p <+: q) : x = y := by
  obtain ⟨j, hleaf, rfl, hj⟩ := hp
  obtain ⟨j', -, rfl, hj'⟩ := hq
  obtain ⟨r, rfl⟩ := h
  obtain ⟨m, hm, hr⟩ := leadsTo_append.1 hj'
  obtain rfl := hj.unique hm
  obtain rfl := hr.eq_nil_of_leaf hleaf
  exact congrArg (fun j => (nodeAt node j).sym) hr

/-! ### The tree the generator walks -/

/-- What the generator needs of the tree with root `r`: the nodes below `k` are its leaves, the others
up to `r` are internal nodes over nodes below them, and all but the root are a child of one. -/
structure CodeTree (node : Vector Node 511) (k r : Nat) : Prop where
  leaf_iff : ∀ i, (nodeAt node i).leaf = true ↔ i < k
  valid : ∀ i, k ≤ i → i ≤ r → (nodeAt node i).valid = true
  left_lt : ∀ i, k ≤ i → i ≤ r → (nodeAt node i).left.toNat < i
  right_lt : ∀ i, k ≤ i → i ≤ r → (nodeAt node i).right.toNat < i
  parent : ∀ c < r, ∃ i, k ≤ i ∧ i ≤ r ∧ IsChild node c i

theorem CodeTree.leaf_eq_false {node : Vector Node 511} {k r i : Nat} (h : CodeTree node k r)
    (hk : k ≤ i) : (nodeAt node i).leaf = false := by
  rw [← Bool.not_eq_true, h.leaf_iff]
  exact Nat.not_lt.2 hk

/-- A path from node `i` passes at most the internal nodes up to `i`. -/
theorem CodeTree.length_le {node : Vector Node 511} {k r i j : Nat} (h : CodeTree node k r)
    (hi : i ≤ r) {p : BitString} (hp : LeadsTo node i p j) : p.length ≤ i + 1 - k := by
  induction p generalizing i with
  | nil => exact Nat.zero_le _
  | cons b p ih =>
    obtain ⟨-, hinner, hp⟩ := hp
    have hk : k ≤ i := Nat.not_lt.1 fun hlt => by simp [(h.leaf_iff i).2 hlt] at hinner
    have hleft := h.left_lt i hk hi
    have hright := h.right_lt i hk hi
    have hchild : (if b then (nodeAt node i).right.toNat else (nodeAt node i).left.toNat) < i := by
      split_ifs <;> assumption
    have := ih (by omega) hp
    rw [List.length_cons]
    omega

theorem CodeTree.leafPath_length_le {node : Vector Node 511} {k r i : Nat} (h : CodeTree node k r)
    (hi : i ≤ r) {p : BitString} {x : Byte} (hp : LeafPath node i p x) : p.length ≤ i + 1 - k := by
  obtain ⟨j, -, -, hj⟩ := hp
  exact h.length_le hi hj

/-- Every node is reached from the root. -/
theorem CodeTree.reached {node : Vector Node 511} {k r : Nat} (h : CodeTree node k r) {c : Nat}
    (hc : c ≤ r) : ∃ p, LeadsTo node r p c := by
  rcases Nat.lt_or_eq_of_le hc with hlt | rfl
  · obtain ⟨i, hk, hi, hchild⟩ := h.parent c hlt
    have hvalid := h.valid i hk hi
    have hinner := h.leaf_eq_false hk
    have hci : c < i := hchild.elim (· ▸ h.left_lt i hk hi) (· ▸ h.right_lt i hk hi)
    obtain ⟨p, hp⟩ := h.reached hi
    obtain hleft | hright := hchild
    · exact ⟨p ++ [false], leadsTo_append.2 ⟨i, hp, hvalid, hinner, hleft⟩⟩
    · exact ⟨p ++ [true], leadsTo_append.2 ⟨i, hp, hvalid, hinner, hright⟩⟩
  · exact ⟨[], rfl⟩
termination_by r - c

/-- The symbols with a path from the root are those of the leaves. -/
theorem CodeTree.exists_leafPath_iff {node : Vector Node 511} {k r : Nat} (h : CodeTree node k r)
    (hk : k ≤ r) (x : Byte) :
    (∃ p, LeafPath node r p x) ↔ ∃ i < k, (nodeAt node i).sym = x := by
  constructor
  · rintro ⟨p, i, hl, hx, -⟩
    exact ⟨i, (h.leaf_iff i).1 hl, hx⟩
  · rintro ⟨i, hi, hx⟩
    obtain ⟨p, hp⟩ := h.reached (Nat.le_of_lt (hi.trans_le hk))
    exact ⟨p, i, (h.leaf_iff i).2 hi, hx, hp⟩

/-! ### The walk (R161) -/

theorem walk_of_leaf {node : Vector Node 511} {i : Nat} (hl : (nodeAt node i).leaf = true) (d : Nat)
    (p : BitString) (c : Vector CodeEntry 256) :
    walk node (d + 1) i p c = storeCode c (nodeAt node i).sym p :=
  if_pos hl

theorem walk_of_inner {node : Vector Node 511} {i : Nat} (hl : (nodeAt node i).leaf = false) (d : Nat)
    (p : BitString) (c : Vector CodeEntry 256) : walk node (d + 1) i p c =
      walk node d (nodeAt node i).right.toNat (p ++ [true])
        (walk node d (nodeAt node i).left.toNat (p ++ [false]) c) :=
  if_neg (by simp [hl])

/-- The walk from node `i`, come to by `p`, stores for a symbol a path on to a leaf of it, and leaves the
entry of a symbol that has none. -/
theorem CodeTree.codeAt_walk {node : Vector Node 511} {k r : Nat} (h : CodeTree node k r) (x : Byte)
    {d i : Nat} (hd : i < d) (hi : i ≤ r) (p : BitString) (c : Vector CodeEntry 256) :
    (∃ q, LeafPath node i q x ∧ codeAt (walk node d i p c) x.toNat = CodeEntry.store (p ++ q)) ∨
    ((¬ ∃ q, LeafPath node i q x) ∧ codeAt (walk node d i p c) x.toNat = codeAt c x.toNat) := by
  induction d generalizing i p c with
  | zero => exact absurd hd (Nat.not_lt_zero i)
  | succ d ih =>
    rcases Nat.lt_or_ge i k with hk | hk
    · have hl := (h.leaf_iff i).2 hk
      rw [walk_of_leaf hl, codeAt_storeCode]
      simp only [leafPath_of_leaf hl]
      split_ifs with hx
      · exact .inl ⟨[], ⟨rfl, hx⟩, by rw [List.append_nil]⟩
      · exact .inr ⟨fun ⟨_, _, hx'⟩ => hx hx', rfl⟩
    · have hl := h.leaf_eq_false hk
      have hleft := h.left_lt i hk hi
      have hright := h.right_lt i hk hi
      rw [walk_of_inner hl]
      simp only [leafPath_of_inner (h.valid i hk hi) hl]
      obtain ⟨q, hq, e⟩ | ⟨hnone, e⟩ := ih (i := (nodeAt node i).right.toNat) (by omega) (by omega)
        (p ++ [true]) (walk node d (nodeAt node i).left.toNat (p ++ [false]) c)
      · exact .inl ⟨true :: q, .inr ⟨q, rfl, hq⟩, by rw [e, List.append_assoc]; rfl⟩
      · rw [e]
        obtain ⟨q, hq, e⟩ | ⟨hnone', e⟩ := ih (i := (nodeAt node i).left.toNat) (by omega) (by omega)
          (p ++ [false]) c
        · exact .inl ⟨false :: q, .inl ⟨q, rfl, hq⟩, by rw [e, List.append_assoc]; rfl⟩
        · refine .inr ⟨?_, e⟩
          rintro ⟨_, ⟨q, -, hq⟩ | ⟨q, -, hq⟩⟩
          · exact hnone' ⟨q, hq⟩
          · exact hnone ⟨q, hq⟩

/-! ### The tree and the codes of an input -/

/-- As many leaves as there are distinct symbols, each of another symbol of the input, leave none out. -/
theorem exists_leaf_of_mem {node : Vector Node 511} {xs : List Byte}
    (hmem : ∀ i < xs.dedup.length, (nodeAt node i).sym ∈ xs)
    (hsorted : ∀ i j, i < j → j < xs.dedup.length → (nodeAt node i).sym < (nodeAt node j).sym)
    {x : Byte} (hx : x ∈ xs) : ∃ i < xs.dedup.length, (nodeAt node i).sym = x := by
  have hmaps : Set.MapsTo (fun i => (nodeAt node i).sym) (Finset.range xs.dedup.length)
      xs.toFinset := fun i hi => by simpa using hmem i (by simpa using hi)
  have hinj : Set.InjOn (fun i => (nodeAt node i).sym) (Finset.range xs.dedup.length) := by
    intro i hi j hj e
    simp only [Finset.coe_range, Set.mem_Iio] at hi hj
    rcases Nat.lt_trichotomy i j with hij | hij | hij
    · exact absurd e (BitVec.ne_of_lt (hsorted i j hij hj))
    · exact hij
    · exact absurd e.symm (BitVec.ne_of_lt (hsorted j i hij hi))
  obtain ⟨i, hi, e⟩ := Finset.surjOn_of_injOn_of_card_le _ hmaps hinj
    (by rw [List.card_toFinset, Finset.card_range]) (by simpa using hx)
  exact ⟨i, by simpa using hi, e⟩

theorem inLen_ne_zero_of_dedup {s : State} (h : 1 ≤ (inputBytes s).dedup.length) : s.inLen ≠ 0 := by
  intro h0
  simp [inputBytes_of_inLen_zero h0] at h

/-- The tree of O25, as the generator meets it. -/
theorem encodeTree_codeTree {s : State} (hready : EncodeReady s) {k : Nat}
    (hk : k = (inputBytes s).dedup.length) (hpos : 1 ≤ k) :
    CodeTree (encodeTree s).node k (2 * k - 2) ∧ k ≤ 256 ∧ (encodeTree s).root.toNat = 2 * k - 2 ∧
    (encodeTree s).count ≠ 0 ∧
    ∀ x, x ∈ inputBytes s ↔ ∃ i < k, (nodeAt (encodeTree s).node i).sym = x := by
  obtain ⟨t, k', hexec, hk', -, hle, -, hcount, hroot, -, hleaf, hsorted, hinner, hblank, -, hparent⟩ :=
    encodeBuildsTree s hready (inLen_ne_zero_of_dedup (hk ▸ hpos))
  obtain rfl := Host.Outcome.next.inj (hexec.symm.trans (exec_encode_run s hready.inLen))
  obtain rfl : k = k' := hk.trans hk'.symm
  simp only [complete_node, complete_root, complete_nodeCount, encodeRun_node, encodeRun_root,
    encodeRun_nodeCount] at hcount hroot hleaf hsorted hinner hblank hparent
  refine ⟨⟨fun i => ⟨fun hl => ?_, fun hi => ?_⟩, fun i hi hi' => ?_,
    fun i hi hi' => ?_, fun i hi hi' => ?_, fun c hc => ?_⟩, hle, hroot, ?_,
    fun x => ⟨fun hx => ?_, ?_⟩⟩
  · by_contra hi
    rcases Nat.lt_or_ge i (2 * k - 1) with hi' | hi'
    · obtain ⟨-, hfalse, -⟩ := hinner i (by omega) hi'
      simp [hl] at hfalse
    · simp [hblank i hi', Node.blank] at hl
  · obtain ⟨x, -, e⟩ := hleaf i hi
    rw [e]
  · obtain ⟨hvalid, -⟩ := hinner i hi (by omega)
    exact hvalid
  · obtain ⟨-, -, -, hleft, -⟩ := hinner i hi (by omega)
    exact hleft
  · obtain ⟨-, -, -, -, hright, -⟩ := hinner i hi (by omega)
    exact hright
  · obtain ⟨i, ⟨hi, hi', hchild⟩, -⟩ := hparent c hc
    exact ⟨i, hi, by omega, hchild⟩
  · intro h0
    simp [h0] at hcount
    omega
  · subst hk
    refine exists_leaf_of_mem (fun i hi => ?_) hsorted hx
    obtain ⟨x, hx, e⟩ := hleaf i hi
    rwa [e]
  · rintro ⟨i, hi, rfl⟩
    obtain ⟨x, hx, e⟩ := hleaf i hi
    rwa [e]

/-- With two symbols or more, ENCODE stores for a symbol of the input a path to a leaf of it, which LEN
has room for, and nothing for another symbol. -/
theorem codeAt_encodeCodes {s : State} (hready : EncodeReady s)
    (hk : 2 ≤ (inputBytes s).dedup.length) (x : Byte) :
    (x ∈ inputBytes s → ∃ p, LeafPath (encodeTree s).node (encodeTree s).root.toNat p x ∧
      p.length ≤ 255 ∧ codeAt (encodeCodes s) x.toNat = CodeEntry.store p) ∧
    (x ∉ inputBytes s → codeAt (encodeCodes s) x.toNat = CodeEntry.blank) := by
  obtain ⟨k, hk'⟩ : ∃ k, k = (inputBytes s).dedup.length := ⟨_, rfl⟩
  rw [← hk'] at hk
  obtain ⟨htree, hle, hroot, hcount, hmem⟩ := encodeTree_codeTree hready hk' (by omega)
  have hinner : ¬ (nodeAt (encodeTree s).node (encodeTree s).root.toNat).leaf = true := by
    rw [htree.leaf_iff]
    omega
  have hwalk := htree.codeAt_walk x (d := 511) (by omega) (Nat.le_refl _) [] emptyCodes
  rw [encodeCodes, generateCodes, if_neg hcount, if_neg hinner, hroot, hmem,
    ← htree.exists_leafPath_iff (by omega)]
  obtain ⟨p, hp, e⟩ | ⟨hnone, e⟩ := hwalk
  · have hlen := htree.leafPath_length_le (Nat.le_refl _) hp
    exact ⟨fun _ => ⟨p, hp, by omega, e⟩, fun hx => absurd ⟨p, hp⟩ hx⟩
  · exact ⟨fun hx => absurd hx hnone, fun _ => e.trans (codeAt_emptyCodes _)⟩

/-- BITS of a stored code is zero at and beyond LEN (R165). -/
theorem store_bit_of_le {p : BitString} (hp : p.length ≤ 255) {j : Nat} (hj : p.length ≤ j) :
    (CodeEntry.store p).bit j = false :=
  (bitsOf_getMsbD p (by omega) j).trans (List.getD_eq_default _ _ hj)

/-- Settles O27: the walk of the tree of O25 stores each leaf's path, of at most 255 bits. -/
theorem encodeCodesAreTreePaths : Obligations.EncodeCodesAreTreePaths := by
  unfold Obligations.EncodeCodesAreTreePaths
  intro s hready hk
  refine ⟨(encodeRun s).complete 0 0, exec_encode_run s hready.inLen, fun x => ?_⟩
  obtain ⟨hpresent, habsent⟩ := codeAt_encodeCodes hready hk x
  refine ⟨fun hx => ?_, habsent⟩
  obtain ⟨p, hp, hlen, e⟩ := hpresent hx
  simp only [complete_code, complete_node, complete_root, encodeRun_code, encodeRun_node,
    encodeRun_root, codeOf, e, store_code p hlen, store_len p hlen]
  exact ⟨hp, fun j hj => store_bit_of_le hlen hj⟩

/-! ### No code starts another (R164) -/

theorem present_iff_codeOf_ne_nil (c : Vector CodeEntry 256) (x : Byte) :
    Present c x ↔ codeOf c x ≠ [] := by
  rw [Present, codeOf, ← List.length_pos_iff, code_length, Nat.pos_iff_ne_zero]
  exact BitVec.toNat_inj.not.symm

theorem not_present_of_blank {c : Vector CodeEntry 256} {x : Byte}
    (h : codeAt c x.toNat = CodeEntry.blank) : ¬ Present c x := by
  simp [Present, h, CodeEntry.blank]

/-- R164: no code starts another one, and the symbols present in the table are those of `xs`. -/
def CodesExactly (c : Vector CodeEntry 256) (xs : List Byte) : Prop :=
  PrefixFree c ∧ ∀ x : Byte, x ∈ xs ↔ Present c x

/-- Paths of one tree to the leaves of the symbols of `xs`, from a root that is no leaf, make such a
table. -/
theorem codesExactly_of_leafPaths {c : Vector CodeEntry 256} {xs : List Byte} {node : Vector Node 511}
    {r : Nat} (hr : (nodeAt node r).leaf = false)
    (hpath : ∀ x ∈ xs, LeafPath node r (codeOf c x) x)
    (habsent : ∀ x ∉ xs, codeAt c x.toNat = CodeEntry.blank) : CodesExactly c xs := by
  have hpresent : ∀ x : Byte, x ∈ xs ↔ Present c x := by
    refine fun x => ⟨fun hx => ?_, fun hx => ?_⟩
    · rw [present_iff_codeOf_ne_nil]
      intro hnil
      obtain ⟨j, hl, -, hj⟩ := hpath x hx
      rw [hnil] at hj
      obtain rfl : r = j := hj
      simp [hr] at hl
    · by_contra hx'
      exact not_present_of_blank (habsent x hx') hx
  refine ⟨fun x y ⟨hne, hx, hy, hprefix⟩ => hne ?_, hpresent⟩
  exact (hpath x ((hpresent x).2 hx)).eq_of_prefix (hpath y ((hpresent y).2 hy)) hprefix

theorem prefixFree_of_present_eq {c : Vector CodeEntry 256} {x : Byte}
    (h : ∀ y, Present c y → y = x) : PrefixFree c :=
  fun y z ⟨hne, hy, hz, _⟩ => hne ((h y hy).trans (h z hz).symm)

/-- R155: ENCODE gives no symbol of the empty input a code. -/
theorem encode_codesExactly_of_empty {s : State} (h : s.inLen = 0) :
    ∃ t, exec .encode s = .next t ∧ CodesExactly t.code (inputBytes s) := by
  obtain ⟨t, hexec, htables, -⟩ := encodeEmptyInput s h
  have habsent : ∀ x : Byte, ¬ Present t.code x := fun x => not_present_of_blank (htables _).2
  refine ⟨t, hexec, fun x _ ⟨_, hx, _⟩ => habsent x hx, fun x => ?_⟩
  simp [inputBytes_of_inLen_zero h, habsent x]

/-- R162: ENCODE gives the only symbol of the input a code. -/
theorem encode_codesExactly_of_constant {s : State} (hready : EncodeReady s) (hlen : s.inLen ≠ 0)
    {x : Byte} (h : ∀ y, y ∈ inputBytes s ↔ y = x) :
    ∃ t, exec .encode s = .next t ∧ CodesExactly t.code (inputBytes s) := by
  obtain ⟨t, hexec, -, -, -, -, -, -, hcode, hother, -⟩ :=
    encodeSingleSymbol s x hready hlen fun y => (h y).1
  have hpresent : ∀ y, y = x ↔ Present t.code y := by
    refine fun y => ⟨?_, fun hy => ?_⟩
    · rintro rfl
      rw [present_iff_codeOf_ne_nil, hcode]
      exact List.cons_ne_nil _ _
    · by_contra hne
      exact not_present_of_blank (hother y hne) hy
  exact ⟨t, hexec, prefixFree_of_present_eq fun y => (hpresent y).2,
    fun y => (h y).trans (hpresent y)⟩

/-- R164: with two symbols or more the codes are paths of a tree whose root is no leaf. -/
theorem encode_codesExactly_of_two_le {s : State} (hready : EncodeReady s)
    (hk : 2 ≤ (inputBytes s).dedup.length) :
    ∃ t, exec .encode s = .next t ∧ CodesExactly t.code (inputBytes s) := by
  obtain ⟨t, hexec, hcodes⟩ := encodeCodesAreTreePaths s hready hk
  obtain rfl := Host.Outcome.next.inj (hexec.symm.trans (exec_encode_run s hready.inLen))
  obtain ⟨htree, -, hroot, -, -⟩ := encodeTree_codeTree hready rfl (by omega)
  have hinner : (nodeAt (encodeTree s).node (encodeTree s).root.toNat).leaf = false :=
    htree.leaf_eq_false (by omega)
  exact ⟨_, hexec, codesExactly_of_leafPaths hinner (fun x hx => ((hcodes x).1 hx).1)
    fun x => (hcodes x).2⟩

/-- Settles O31: no code at all, one code, or the paths of one tree. -/
theorem encodeTableIsPrefixFree : Obligations.EncodeTableIsPrefixFree := by
  unfold Obligations.EncodeTableIsPrefixFree
  intro s hready
  have htable : ∃ t, exec .encode s = .next t ∧ CodesExactly t.code (inputBytes s) := by
    match hd : (inputBytes s).dedup with
    | [] =>
      refine encode_codesExactly_of_empty (BitVec.eq_of_toNat_eq ?_)
      rw [← inputBytes_length, (List.dedup_eq_nil _).1 hd]
      rfl
    | [x] =>
      refine encode_codesExactly_of_constant hready (x := x) (inLen_ne_zero_of_dedup (by simp [hd])) ?_
      exact fun y => by rw [← List.mem_dedup, hd, List.mem_singleton]
    | x :: y :: l => exact encode_codesExactly_of_two_le hready (by simp [hd])
  obtain ⟨t, hexec, hfree, hmem⟩ := htable
  exact ⟨t, hexec, hfree, fun x => ⟨hmem x, fun hx =>
    (present_iff_codeOf_ne_nil t.code x).1 ((hmem x).1 hx)⟩⟩

end Sys2Proof.Machine
end

section
/-! SUPPORT. The bit packer: OUT_MEM holds the concatenated codes, most significant bit first, and the
counts are the stream's (R170 to R173). -/

namespace Sys2Proof.Machine

/-! ### One bit (R171) -/

theorem putBitInByte_getLsbD (x : Byte) {off i : Nat} (hi : i < 8) (b : Bool) :
    (putBitInByte x off b).getLsbD i = if i = off then b else x.getLsbD i := by
  have hbit : (1#8 <<< off).getLsbD i = decide (i = off) := by
    simp only [← BitVec.twoPow_eq, BitVec.getLsbD_twoPow, ← Bool.decide_and, decide_eq_decide]
    omega
  cases b
  · rw [putBitInByte, if_neg (by decide), BitVec.getLsbD_and, BitVec.getLsbD_not, hbit]
    split_ifs <;> simp [*]
  · rw [putBitInByte, if_pos rfl, BitVec.getLsbD_or, hbit]
    split_ifs <;> simp [*]

/-- A new bit changes no byte but its own. -/
theorem outByte_putBit_other (m : ByteMem) {bp i : Nat} (b : Bool) (h : i ≠ bp / 8) :
    outByte (putBit m bp b) i = outByte m i := by
  rw [putBit, outByte_set_other _ _ h]
  split_ifs
  · exact outByte_set_other _ _ h
  · rfl

/-- In its byte a new bit changes no bit but its own, and the first one clears the others. -/
theorem outByte_putBit_same (m : ByteMem) (bp : Nat) (b : Bool) {j : Nat} (hj : j < 8) :
    (outByte (putBit m bp b) (bp / 8)).getLsbD (7 - j) =
      if j = bp % 8 then b
      else if bp % 8 = 0 then false else (outByte m (bp / 8)).getLsbD (7 - j) := by
  have hpos : 7 - j = 7 - bp % 8 ↔ j = bp % 8 := by omega
  rw [putBit, outByte_set_same, putBitInByte_getLsbD _ (by omega)]
  simp only [hpos]
  split_ifs
  · rfl
  · rw [outByte_set_same, BitVec.ofNat_eq_ofNat, BitVec.getLsbD_zero]
  · rfl

/-! ### The packed stream (R170, R172) -/

/-- The packer has emitted `bits` over the memory `m`: bit 7 − b of a byte it began is stream bit b of
that byte, 0 past the stream, and the other bytes are those of `m`. -/
structure Packer.Holds (m : ByteMem) (bits : BitString) (p : Packer) : Prop where
  bp : p.bp = bits.length
  written : ∀ i, i < (bits.length + 7) / 8 → ∀ b, b < 8 →
    (outByte p.mem i).getLsbD (7 - b) = bits.getD (8 * i + b) false
  rest : ∀ i, (bits.length + 7) / 8 ≤ i → outByte p.mem i = outByte m i

theorem getD_append_singleton (bits : BitString) (b : Bool) (i : Nat) :
    (bits ++ [b]).getD i false = if i = bits.length then b else bits.getD i false := by
  rcases Nat.lt_trichotomy i bits.length with h | rfl | h
  · rw [List.getD_append _ _ _ _ h, if_neg (Nat.ne_of_lt h)]
  · simp
  · rw [if_neg (Nat.ne_of_gt h), List.getD_eq_default _ _ (by simpa using h),
      List.getD_eq_default _ _ (Nat.le_of_lt h)]

theorem Packer.Holds.add_bit {m : ByteMem} {bits : BitString} {p : Packer} (h : p.Holds m bits)
    (b : Bool) : Packer.Holds m (bits ++ [b])
      { mem := putBit p.mem p.bp b, bp := p.bp + 1 } := by
  refine ⟨?_, fun i hi j hj => ?_, fun i hi => ?_⟩
  · rw [h.bp, List.length_append, List.length_singleton]
  · rw [List.length_append, List.length_singleton] at hi
    rw [getD_append_singleton]
    by_cases hbyte : i = bits.length / 8
    · subst hbyte
      have hpos : 8 * (bits.length / 8) + j = bits.length ↔ j = bits.length % 8 := by omega
      rw [h.bp, outByte_putBit_same _ _ _ hj]
      simp only [hpos]
      split_ifs with hnew hfirst
      · rfl
      · exact (List.getD_eq_default _ _ (by omega)).symm
      · exact h.written _ (by omega) j hj
    · rw [h.bp, outByte_putBit_other _ _ hbyte, if_neg (by omega)]
      exact h.written i (by omega) j hj
  · rw [List.length_append, List.length_singleton] at hi
    rw [h.bp, outByte_putBit_other _ _ (by omega)]
    exact h.rest i (by omega)

theorem Packer.Holds.add_code {m : ByteMem} {bits : BitString} {p : Packer} (h : p.Holds m bits)
    (code : BitString) : (packCode p code).Holds m (bits ++ code) := by
  induction code generalizing p bits with
  | nil => rwa [List.append_nil]
  | cons b code ih =>
    rw [List.append_cons]
    exact ih (h.add_bit b)

/-- BP_PACK leaves the stream of the input's codes in OUT_MEM. -/
theorem packInput_holds (c : Vector CodeEntry 256) (xs : List Byte) (m : ByteMem) :
    (packInput c xs m).Holds m (streamOf c xs) := by
  suffices ∀ p : Packer, ∀ bits, p.Holds m bits →
      (xs.foldl (fun p s => packCode p (codeAt c s.toNat).code) p).Holds m (bits ++ streamOf c xs) from
    this _ [] ⟨rfl, fun i hi => absurd hi (by simp), fun _ _ => rfl⟩
  induction xs with
  | nil => exact fun p bits h => by rwa [streamOf, List.flatMap_nil, List.append_nil]
  | cons x xs ih =>
    intro p bits h
    rw [streamOf, List.flatMap_cons, ← List.append_assoc]
    exact ih _ _ (h.add_code _)

/-- LAST_BITS has room for every count of R173. -/
theorem lastBits_toNat (n : Nat) : (BitVec.ofNat 4 (lastBitsOf n)).toNat =
    if n = 0 then 0 else if n % 8 = 0 then 8 else n % 8 := by
  have hle := lastBitsOf_le n
  rw [BitVec.toNat_ofNat, Nat.mod_eq_of_lt (by omega), lastBitsOf, ite_not]

/-- Settles O32: the packer's memory holds the stream, and the counts are those of its bit position, the
stream's length. -/
theorem encodePacksCodes : Obligations.EncodePacksCodes := by
  unfold Obligations.EncodePacksCodes
  intro s hin
  have hpacked := packInput_holds (encodeCodes s) (inputBytes s) s.outMem
  refine ⟨(encodeRun s).complete 0 0, _, exec_encode_run s hin, rfl, hpacked.written, hpacked.rest,
    ?_, ?_, ?_⟩
  · rw [complete_bitLen, encodeRun_bitLen, hpacked.bp]
    rfl
  · rw [complete_outLen, encodeRun_outLen, hpacked.bp]
    rfl
  · rw [complete_lastBits, encodeRun_lastBits, hpacked.bp]
    exact lastBits_toNat _

end Sys2Proof.Machine
end

section
/-! SUPPORT. The packed codes are never longer than the input: merging the two smallest weights costs no
more than a tree of depth 8, and the walk gives each byte one bit a merge above its leaf (R9, R174). -/

namespace Sys2Proof.Machine

/-! ### Merging weights (R151) -/

/-- Weights `q` left to be joined, after merges that cost `cost`: as the leaves of a binary tree of depth
`L`, those of `t` one level above the bottom, they cost L · Σq − Σt, and together that is within `bound`. -/
def MergesWithin (bound : Nat) (q : Multiset Nat) (cost : Nat) : Prop :=
  ∃ L, ∃ t ≤ q, t.card + q.card = 2 ^ L ∧ cost + L * q.sum ≤ bound + t.sum

/-- Up to 2^L weights fit a tree of depth L. -/
theorem MergesWithin.start {q : Multiset Nat} {D : Nat} (hpos : 0 < q.card) (h : q.card ≤ 2 ^ D) :
    MergesWithin (D * q.sum) q 0 := by
  induction D with
  | zero =>
    have hone : q.card = 1 := Nat.le_antisymm h hpos
    exact ⟨0, 0, Multiset.zero_le _, by rw [hone, Multiset.card_zero]; rfl, by simp⟩
  | succ D ih =>
    rcases Nat.lt_or_ge (2 ^ D) q.card with hlt | hle
    · have hpow : 2 ^ (D + 1) = 2 * 2 ^ D := pow_succ' 2 D
      obtain ⟨t, ht⟩ : ∃ t, t ∈ q.powersetCard (2 ^ (D + 1) - q.card) := by
        rw [← Multiset.card_pos_iff_exists_mem, Multiset.card_powersetCard]
        exact Nat.choose_pos (by omega)
      obtain ⟨htq, hcard⟩ := Multiset.mem_powersetCard.1 ht
      exact ⟨D + 1, t, htq, by omega, by omega⟩
    · obtain ⟨L, t, htq, hcard, hcost⟩ := ih hle
      exact ⟨L, t, htq, hcard, by rw [Nat.add_mul]; omega⟩

/-- Weights can be chosen without the smallest one, if there are enough, and do not get smaller. -/
theorem exists_le_without_smallest {x : Nat} {q t : Multiset Nat} (hx : ∀ z ∈ q, x ≤ z)
    (ht : t ≤ x ::ₘ q) (hc : t.card ≤ q.card) : ∃ t' ≤ q, t'.card = t.card ∧ t.sum ≤ t'.sum := by
  by_cases hxt : x ∈ t
  · obtain ⟨u, rfl⟩ := Multiset.exists_cons_of_mem hxt
    obtain ⟨v, rfl⟩ := Multiset.le_iff_exists_add.1 ((Multiset.cons_le_cons_iff x).1 ht)
    have hv : 0 < v.card := by
      rw [Multiset.card_cons, Multiset.card_add] at hc
      omega
    obtain ⟨z, hz⟩ := Multiset.card_pos_iff_exists_mem.1 hv
    have hxz := hx z (Multiset.mem_add.2 (.inr hz))
    refine ⟨z ::ₘ u, ?_, by simp, by simpa using hxz⟩
    rw [← Multiset.singleton_add, add_comm]
    simpa using hz
  · exact ⟨t, (Multiset.le_cons_of_notMem hxt).1 ht, rfl, le_rfl⟩

/-- The tree can be taken with the two smallest weights at the bottom: a tree with no weight there has
depth L − 1, and one of the two that stands a level up can change places with a weight at the bottom,
which is no smaller. -/
theorem MergesWithin.exists_bottom {bound cost x y : Nat} {q : Multiset Nat}
    (h : MergesWithin bound (x ::ₘ y ::ₘ q) cost) (hxy : x ≤ y) (hy : ∀ z ∈ q, y ≤ z) :
    ∃ L, ∃ t ≤ q, t.card + (q.card + 2) = 2 ^ L ∧
      cost + L * (x ::ₘ y ::ₘ q).sum ≤ bound + t.sum := by
  obtain ⟨L, t, ht, hcard, hcost⟩ := h
  have hle := Multiset.card_le_card ht
  simp only [Multiset.card_cons] at hcard hle
  cases L with
  | zero => omega
  | succ L =>
    rw [pow_succ] at hcard
    rcases Nat.lt_or_ge q.card t.card with hfull | hroom
    · obtain rfl : t = x ::ₘ y ::ₘ q :=
        Multiset.eq_of_le_of_card_le ht (by simp only [Multiset.card_cons]; omega)
      simp only [Multiset.card_cons] at hcard
      rw [Nat.add_mul, Nat.one_mul] at hcost
      refine ⟨L, 0, Multiset.zero_le _, ?_, ?_⟩
      · rw [Multiset.card_zero]
        omega
      · rw [Multiset.sum_zero]
        omega
    · have hx : ∀ z ∈ y ::ₘ q, x ≤ z :=
        Multiset.forall_mem_cons.2 ⟨hxy, fun z hz => hxy.trans (hy z hz)⟩
      obtain ⟨u, hu, hucard, husum⟩ :=
        exists_le_without_smallest hx ht (by rw [Multiset.card_cons]; omega)
      obtain ⟨v, hv, hvcard, hvsum⟩ := exists_le_without_smallest hy hu (by omega)
      exact ⟨L + 1, v, hv, by rw [pow_succ]; omega, by omega⟩

/-- Joining the two smallest weights, siblings at the bottom, puts their sum one level up. -/
theorem MergesWithin.merge {bound cost x y : Nat} {q : Multiset Nat}
    (h : MergesWithin bound (x ::ₘ y ::ₘ q) cost) (hxy : x ≤ y) (hy : ∀ z ∈ q, y ≤ z) :
    MergesWithin bound ((x + y) ::ₘ q) (cost + (x + y)) := by
  obtain ⟨L, t, ht, hcard, hcost⟩ := h.exists_bottom hxy hy
  refine ⟨L, (x + y) ::ₘ t, Multiset.cons_le_cons _ ht, ?_, ?_⟩
  · simp only [Multiset.card_cons]
    omega
  · simp only [Multiset.sum_cons, ← Nat.add_assoc] at hcost ⊢
    omega

/-- A single weight is a tree that costs nothing more. -/
theorem MergesWithin.finish {bound cost w : Nat} (h : MergesWithin bound {w} cost) : cost ≤ bound := by
  obtain ⟨L, t, ht, hcard, hcost⟩ := h
  rcases Multiset.le_singleton.1 ht with rfl | rfl
  · exact (Nat.le_add_right _ _).trans hcost
  · cases L with
    | zero => cases hcard
    | succ L =>
      rw [Nat.add_mul, Nat.one_mul] at hcost
      omega

/-! ### The cost of a tree (R151, R161) -/

/-- The bits that the paths below node `i` give the input bytes counted there: each internal node adds one
bit to the code of every byte below it. -/
def codeCost (node : Vector Node 511) (i : Nat) : Nat :=
  if (nodeAt node i).leaf = false ∧ (nodeAt node i).left.toNat < i ∧ (nodeAt node i).right.toNat < i then
    (nodeAt node i).freq.toNat + codeCost node (nodeAt node i).left.toNat +
      codeCost node (nodeAt node i).right.toNat
  else 0
termination_by i

theorem codeCost_of_leaf {node : Vector Node 511} {i : Nat} (h : (nodeAt node i).leaf = true) :
    codeCost node i = 0 := by
  rw [codeCost, if_neg (by simp [h])]

theorem JoinsTwo.codeCost_eq {node : Vector Node 511} {i : Nat} (h : JoinsTwo node i) :
    codeCost node i = (nodeAt node i).freq.toNat + codeCost node (nodeAt node i).left.toNat +
      codeCost node (nodeAt node i).right.toNat := by
  obtain ⟨hleaf, -, hleft, hright, -⟩ := h
  rw [codeCost, if_pos ⟨hleaf, hleft, hright⟩]

/-- The cost looks at nothing from `i + 1` up. -/
theorem codeCost_congr {node node' : Vector Node 511} {i : Nat}
    (e : ∀ j ≤ i, nodeAt node' j = nodeAt node j) : codeCost node' i = codeCost node i := by
  induction i using Nat.strong_induction_on with
  | _ i ih =>
    rw [codeCost.eq_def node', codeCost.eq_def node, e i (Nat.le_refl i)]
    split_ifs with h
    · obtain ⟨-, hleft, hright⟩ := h
      rw [ih _ hleft fun j hj => e j (by omega), ih _ hright fun j hj => e j (by omega)]
    · rfl

/-- The weights a merge loop has left to join. -/
def Arena.weights (a : Arena) : Multiset Nat :=
  (a.queue : Multiset Nat).map fun i => (nodeAt a.node i).freq.toNat

/-- The bits the trees joined so far give the input. -/
def Arena.spent (a : Arena) : Nat := ((a.queue : Multiset Nat).map (codeCost a.node)).sum

section Merge
variable {l : List Node} {total : Nat} {a : Arena} {x y : Nat} {q : List Nat}
variable (hf : a.Forest l.length) (hp : a.queue.Perm (x :: y :: q)) (hl : l.length ≤ 256)
include hf hp hl

theorem Arena.Forest.children_merged :
    (nodeAt (a.merged x y q).node a.next).left.toNat = x ∧
    (nodeAt (a.merged x y q).node a.next).right.toNat = y := by
  have hroom := hf.room hl hp
  obtain ⟨hx, hy, -⟩ := hf.taken hp
  rw [hf.nodeAt_merged hl hp, if_pos rfl]
  exact ⟨Nat.mod_eq_of_lt (by omega), Nat.mod_eq_of_lt (by omega)⟩

omit hl in
/-- The queue after a merge, and with it a sum over it: what was left, and the new node. -/
theorem Arena.Forest.map_merged_queue (g g' : Nat → Nat) (hg : ∀ i < a.next, g' i = g i) :
    ((a.merged x y q).queue : Multiset Nat).map g' = g' a.next ::ₘ (q : Multiset Nat).map g := by
  rw [hf.merged_queue hp, Multiset.coe_eq_coe.2 (List.perm_append_singleton a.next q),
    ← Multiset.cons_coe, Multiset.map_cons]
  exact congrArg _ (Multiset.map_congr rfl fun i hi => hg i (hf.rest_lt hp i hi))

omit hf hl in
theorem Arena.map_queue (g : Nat → Nat) :
    (a.queue : Multiset Nat).map g = g x ::ₘ g y ::ₘ (q : Multiset Nat).map g := by
  rw [Multiset.coe_eq_coe.2 hp]
  rfl

variable (h : a.Linked l total) (ht : total < 2 ^ 32)
include h ht

theorem Arena.Linked.weights_merged : (a.merged x y q).weights =
    ((nodeAt a.node x).freq.toNat + (nodeAt a.node y).freq.toNat) ::ₘ
      (q : Multiset Nat).map fun i => (nodeAt a.node i).freq.toNat := by
  rw [Arena.weights, hf.map_merged_queue hp _ _ fun i hi => by rw [Arena.nodeAt_merged_of_lt hi],
    h.freq_merged_new hf hp hl ht]

/-- A merge spends the sum of the two frequencies it joins. -/
theorem Arena.Linked.spent_merged : (a.merged x y q).spent =
    a.spent + ((nodeAt a.node x).freq.toNat + (nodeAt a.node y).freq.toNat) := by
  obtain ⟨hx, hy, -⟩ := hf.taken hp
  have hold : ∀ i < a.next, codeCost (a.merged x y q).node i = codeCost a.node i := fun i hi =>
    codeCost_congr fun j hj => Arena.nodeAt_merged_of_lt (by omega)
  obtain ⟨hleft, hright⟩ := hf.children_merged hp hl
  rw [Arena.spent, hf.map_merged_queue hp _ _ hold, Arena.spent, Arena.map_queue hp,
    (h.joins_merged hf hp hl ht).codeCost_eq, hleft, hright, hold x hx, hold y hy,
    h.freq_merged_new hf hp hl ht]
  simp only [Multiset.sum_cons]
  omega

end Merge

section Loop
variable {l : List Node} {total : Nat} {a : Arena}
variable (h : a.Greedy l total) (hl : l.length ≤ 256) (ht : total < 2 ^ 32)
include h hl ht

/-- A merge joins the two smallest weights. -/
theorem Arena.Greedy.mergesWithin_mergeOnce {bound : Nat} (hq : 1 < pqSize a.queue)
    (hw : MergesWithin bound a.weights a.spent) :
    MergesWithin bound (mergeOnce a).weights (mergeOnce a).spent := by
  obtain ⟨x, y, q, hp, e, hxy, hy⟩ := mergeOnce_joins_smallest h.forest.nodup hq
  have le_of_keyBefore : ∀ {i j}, KeyBefore a.node i j →
      (nodeAt a.node i).freq.toNat ≤ (nodeAt a.node j).freq.toNat := fun hij => by
    unfold KeyBefore at hij
    omega
  rw [e, h.linked.weights_merged h.forest hp hl ht, h.linked.spent_merged h.forest hp hl ht]
  rw [Arena.weights, Arena.map_queue hp] at hw
  refine hw.merge (le_of_keyBefore hxy) fun z hz => ?_
  obtain ⟨j, hj, rfl⟩ := Multiset.mem_map.1 hz
  exact le_of_keyBefore (hy j hj)

theorem Arena.Greedy.mergesWithin_mergeLoop {bound : Nat} (r : Nat)
    (hw : MergesWithin bound a.weights a.spent) :
    MergesWithin bound (mergeLoop r a).weights (mergeLoop r a).spent := by
  induction r generalizing a with
  | zero => exact hw
  | succ r ih =>
    rw [mergeLoop]
    split_ifs with hq
    · exact ih (h.of_mergeOnce hl ht hq) (h.mergesWithin_mergeOnce hl ht hq hw)
    · exact hw

end Loop

/-- With one tree left, it costs what was spent. -/
theorem MergesWithin.codeCost_le {bound r : Nat} {a : Arena}
    (h : MergesWithin bound a.weights a.spent) (hq : a.queue = [r]) : codeCost a.node r ≤ bound := by
  have hweights : a.weights = {(nodeAt a.node r).freq.toNat} := by rw [Arena.weights, hq]; rfl
  have hspent : a.spent = codeCost a.node r := by rw [Arena.spent, hq]; rfl
  rw [hweights, hspent] at h
  exact h.finish

theorem leafNodes_leaf {fs : List Word} {s : Nat} {n : Node} (h : n ∈ leafNodes fs s) :
    n.leaf = true := by
  simp only [leafNodes, List.mem_map] at h
  obtain ⟨_, -, rfl⟩ := h
  rfl

/-- Leaves alone cost nothing yet, and 256 of them fit a tree of depth 8 (R9). -/
theorem Arena.Lists.mergesWithin {l : List Node} {a : Arena} (h : a.Lists l) (hne : l ≠ [])
    (hl : l.length ≤ 256) (hleaf : ∀ n ∈ l, n.leaf = true) :
    MergesWithin (8 * (l.map fun n => n.freq.toNat).sum) a.weights a.spent := by
  have hspent : a.spent = 0 := by
    refine Multiset.sum_eq_zero fun c hc => ?_
    obtain ⟨i, hi, rfl⟩ := Multiset.mem_map.1 hc
    have hi : i < l.length := by simpa [h.queue] using hi
    refine codeCost_of_leaf ?_
    rw [h.nodes, List.getD_eq_getElem _ _ hi]
    exact hleaf _ (List.getElem_mem hi)
  have hcard : a.weights.card = l.length := by simp [Arena.weights, h.queue]
  have hsum : a.weights.sum = (l.map fun n => n.freq.toNat).sum := h.linked.total
  rw [hspent, ← hsum]
  exact .start (by rw [hcard]; exact List.length_pos_iff.2 hne) (by rw [hcard]; exact hl)

/-- The tree of a non-empty input gives it at most 8 bits a byte. -/
theorem buildTree_codeCost {xs : List Byte} (h : xs.length < 2 ^ 32) (hne : xs ≠ [])
    {l : List Node} (hl : l = leafNodes (countFreq xs).toList 0) : ∃ a : Arena, a.Linked l xs.length ∧
    a.next = 2 * l.length - 1 ∧ codeCost a.node (2 * l.length - 2) ≤ 8 * xs.length ∧
    buildTree (countFreq xs) [] =
      { node := a.node, queue := [], root := BitVec.ofNat 9 (2 * l.length - 2),
        count := BitVec.ofNat 10 (2 * l.length - 1) } := by
  have hleaf := leafInit_lists (countFreq xs)
  have hsum := leafNodes_freq_sum h
  rw [← hl] at hleaf hsum
  have hpos := leafNodes_length_pos h hl hne
  have hle := leafNodes_length_le_256 hl
  have hlne : l ≠ [] := List.length_pos_iff.1 hpos
  have hstart := hleaf.greedy hlne (hl ▸ fun _ => leafNodes_valid)
  have hwithin := hleaf.mergesWithin hlne hle (hl ▸ fun _ => leafNodes_leaf)
  rw [hsum] at hstart hwithin
  have hnext : (leafInit (countFreq xs) []).next ≠ 0 := by rw [hleaf.next]; omega
  obtain ⟨hforest, -, hsize⟩ := mergeLoop_ends (P := fun _ => True) hle
    (fun _ _ _ _ _ _ _ => trivial) (pqSize (leafInit (countFreq xs) []).queue) hstart.forest trivial
    (Nat.le_succ _)
  obtain ⟨hqueue, hend⟩ := hforest.root hsize
  refine ⟨_, (hstart.of_mergeLoop hle h _).linked, hend, ?_, ?_⟩
  · exact (hstart.mergesWithin_mergeLoop hle h _ hwithin).codeCost_le hqueue
  · rw [buildTree, if_neg hnext, takeRoot_of_singleton hqueue, hend]

/-! ### The length of the stream (R174) -/

theorem store_code_length_le (p : BitString) : (CodeEntry.store p).code.length ≤ p.length := by
  rw [code_length, CodeEntry.store, BitVec.toNat_ofNat]
  exact Nat.mod_le _ _

/-- Storing a code of a symbol lengthens the stream by that code at most, for each occurrence. -/
theorem streamOf_storeCode_length_le (c : Vector CodeEntry 256) (x : Byte) (p : BitString)
    (xs : List Byte) :
    (streamOf (storeCode c x p) xs).length ≤ (streamOf c xs).length + p.length * xs.count x := by
  induction xs with
  | nil => simp [streamOf]
  | cons y xs ih =>
    have hp := store_code_length_le p
    simp only [streamOf, List.flatMap_cons, List.length_append, codeOf, codeAt_storeCode,
      List.count_cons, beq_iff_eq] at ih ⊢
    by_cases hxy : x = y
    · rw [if_pos hxy, if_pos hxy.symm, Nat.mul_add]
      omega
    · rw [if_neg hxy, if_neg (Ne.symm hxy), Nat.add_zero]
      omega

theorem streamOf_emptyCodes (xs : List Byte) : streamOf emptyCodes xs = [] :=
  List.flatMap_eq_nil_iff.2 fun x _ => by simp [codeOf, CodeEntry.code, CodeEntry.blank]

section Walk
variable {node : Vector Node 511} {xs : List Byte} {k n : Nat}
variable (hleaf : ∀ i < k, (nodeAt node i).leaf = true ∧
  (nodeAt node i).freq.toNat = xs.count (nodeAt node i).sym)
variable (hjoin : ∀ i, k ≤ i → i < n → JoinsTwo node i)
include hleaf hjoin

/-- The walk from node `i`, come to by `p`, gives each byte below it `p` and a path on from `i`. -/
theorem streamOf_walk_length_le (d : Nat) {i : Nat} (hi : i < n) (p : BitString)
    (c : Vector CodeEntry 256) : (streamOf (walk node d i p c) xs).length ≤
      (streamOf c xs).length + p.length * (nodeAt node i).freq.toNat + codeCost node i := by
  induction d generalizing i p c with
  | zero => exact Nat.le_add_right_of_le (Nat.le_add_right _ _)
  | succ d ih =>
    rcases Nat.lt_or_ge i k with hk | hk
    · obtain ⟨hl, hfreq⟩ := hleaf i hk
      rw [walk_of_leaf hl, hfreq]
      exact Nat.le_add_right_of_le (streamOf_storeCode_length_le c _ p xs)
    · have hjoins := hjoin i hk hi
      rw [hjoins.codeCost_eq]
      obtain ⟨hl, -, hleft, hright, -, hfreq⟩ := hjoins
      have hstep := ih (hleft.trans hi) (p ++ [false]) c
      have hstep' := ih (hright.trans hi) (p ++ [true])
        (walk node d (nodeAt node i).left.toNat (p ++ [false]) c)
      rw [walk_of_inner hl, hfreq]
      simp only [List.length_append, List.length_singleton, Nat.add_mul, Nat.mul_add, Nat.one_mul]
        at hstep hstep' ⊢
      omega

end Walk

/-- R9 (c), R174: the codes generated for an input give it at most 8 bits a byte. -/
theorem streamOf_generateCodes_length_le {xs : List Byte} (h : xs.length < 2 ^ 32) :
    (streamOf (generateCodes (buildTree (countFreq xs) [])) xs).length ≤ 8 * xs.length := by
  rcases eq_or_ne xs [] with rfl | hne
  · exact Nat.le_refl 0
  obtain ⟨l, hl⟩ : ∃ l, l = leafNodes (countFreq xs).toList 0 := ⟨_, rfl⟩
  have hpos := leafNodes_length_pos h hl hne
  have hle := leafNodes_length_le_256 hl
  obtain ⟨a, hlink, hnext, hcost, htree⟩ := buildTree_codeCost h hne hl
  have hroot : (BitVec.ofNat 9 (2 * l.length - 2)).toNat = 2 * l.length - 2 :=
    Nat.mod_eq_of_lt (by omega)
  rw [htree, generateCodes]
  simp only [hroot]
  split_ifs
  · rw [streamOf_emptyCodes]
    exact Nat.zero_le _
  · have hstore := streamOf_storeCode_length_le emptyCodes
      (nodeAt a.node (2 * l.length - 2)).sym [false] xs
    have hcount := List.count_le_length (a := (nodeAt a.node (2 * l.length - 2)).sym) (l := xs)
    simp only [streamOf_emptyCodes, List.length_nil, List.length_singleton] at hstore
    omega
  · have hleaf : ∀ i < l.length, (nodeAt a.node i).leaf = true ∧
        (nodeAt a.node i).freq.toNat = xs.count (nodeAt a.node i).sym := fun i hi => by
      obtain ⟨x, -, e⟩ := hlink.leaf h hl hi
      rw [e]
      exact ⟨rfl, freqAt_countFreq_toNat h x⟩
    have hwalk := streamOf_walk_length_le hleaf hlink.joins 511 (i := 2 * l.length - 2) (by omega) []
      emptyCodes
    simp only [streamOf_emptyCodes, List.length_nil] at hwalk
    omega

/-- Settles O33: the merges of the two smallest keep within a tree of depth 8, the walk gives each byte
a bit a merge above its leaf, and a stream of at most 8 · IN_CAP bits fits BITLEN. -/
theorem encodeCannotOverflow : Obligations.EncodeCannotOverflow := by
  unfold Obligations.EncodeCannotOverflow
  intro s hready
  obtain ⟨-, hcap, -, hout, -⟩ := params_caps hready.params
  have hin := hready.inLen
  have hbound : (streamOf (encodeCodes s) (inputBytes s)).length ≤ 8 * s.inLen.toNat := by
    have hlt : (inputBytes s).length < 2 ^ 32 := by rw [inputBytes_length]; exact s.inLen.isLt
    rw [encodeCodes, encodeTree, hready.queue, ← inputBytes_length s]
    exact streamOf_generateCodes_length_le hlt
  refine ⟨(encodeRun s).complete 0 0, exec_encode_run s hin, rfl, hbound, ?_, ?_, hin, hout⟩
  · rw [complete_bitLen, encodeRun_bitLen, packInput_bp]
    exact Nat.mod_eq_of_lt (by omega)
  · rw [complete_outLen, encodeRun_outLen, packInput_bp, BitVec.toNat_ofNat]
    omega

end Sys2Proof.Machine
end

section
/-! SUPPORT. The decoder's table: DC_TABLE lists the present symbols in ascending order with their codes,
so the first clash is the lexicographically first one, and a look-up in a table without clashes finds a
code's one symbol (R181, R182, R184). -/

namespace Sys2Proof.Machine

/-! ### The present symbols (R181) -/

/-- The 256 byte values, in ascending order. -/
def allBytes : List Byte := (List.range 256).map (BitVec.ofNat 8)

/-- The present symbols of a code table, in ascending order. -/
def presentSymbols (c : Vector CodeEntry 256) : List Byte :=
  allBytes.filter fun x => (codeAt c x.toNat).len ≠ 0

theorem mem_allBytes (x : Byte) : x ∈ allBytes :=
  List.mem_map.2 ⟨x.toNat, List.mem_range.2 x.isLt, by simp⟩

theorem allBytes_sorted : allBytes.Pairwise (· < ·) := by
  refine List.pairwise_map.2 (List.pairwise_lt_range.imp_of_mem fun {i j} hi hj hij => ?_)
  rw [List.mem_range] at hi hj
  rwa [BitVec.lt_def, BitVec.toNat_ofNat, BitVec.toNat_ofNat, Nat.mod_eq_of_lt hi, Nat.mod_eq_of_lt hj]

theorem mem_presentSymbols {c : Vector CodeEntry 256} {x : Byte} :
    x ∈ presentSymbols c ↔ Present c x := by
  simp [presentSymbols, mem_allBytes, Present]

theorem presentSymbols_sorted (c : Vector CodeEntry 256) : (presentSymbols c).Pairwise (· < ·) :=
  allBytes_sorted.filter _

theorem zipIdx_eq_map_codeAt (c : Vector CodeEntry 256) :
    c.toList.zipIdx = allBytes.map fun x => (codeAt c x.toNat, x.toNat) := by
  refine List.ext_getElem (by simp [allBytes]) fun i hi _ => ?_
  have hi : i < 256 := by simpa using hi
  simp [allBytes, codeAt, hi, Nat.mod_eq_of_lt hi]

/-- DC_TABLE is the present symbols, each with its code. -/
theorem readTable_eq (c : Vector CodeEntry 256) :
    readTable c = (presentSymbols c).map fun x => (x, codeOf c x) := by
  rw [readTable, zipIdx_eq_map_codeAt, List.filter_map, List.map_map]
  exact List.map_congr_left fun x _ => Prod.ext (by simp) rfl

theorem readTable_length (c : Vector CodeEntry 256) : (readTable c).length = presentCount c := by
  rw [readTable_eq, List.length_map, presentSymbols, allBytes, ← List.countP_eq_length_filter,
    List.countP_map, presentCount]
  refine List.countP_congr fun i hi => ?_
  rw [List.mem_range] at hi
  simp [Nat.mod_eq_of_lt hi]

/-! ### The first clash (R182) -/

theorem isPrefix_iff (p q : BitString) : isPrefix p q = true ↔ p <+: q := by
  rw [isPrefix, Bool.and_eq_true, decide_eq_true_iff, beq_iff_eq, List.prefix_iff_eq_take]
  refine ⟨fun ⟨_, h⟩ => h.symm, fun h => ⟨?_, h.symm⟩⟩
  exact (List.prefix_iff_eq_take.2 h).length_le

/-- DC_VALIDATE's test of a pair of symbols. -/
def clashTest (c : Vector CodeEntry 256) (p : Byte × Byte) : Bool :=
  p.1 != p.2 && isPrefix (codeOf c p.1) (codeOf c p.2)

/-- The pairs of present symbols, in lexicographic order. -/
def symbolPairs (c : Vector CodeEntry 256) : List (Byte × Byte) :=
  (presentSymbols c).product (presentSymbols c)

/-- The lexicographic order of pairs of symbols. -/
def PairBefore (p q : Byte × Byte) : Prop := p.1 < q.1 ∨ (p.1 = q.1 ∧ p.2 < q.2)

theorem symbolPairs_sorted (c : Vector CodeEntry 256) : (symbolPairs c).Pairwise PairBefore := by
  refine List.pairwise_flatMap.2 ⟨fun x _ => ?_, (presentSymbols_sorted c).imp fun hxy => ?_⟩
  · exact List.pairwise_map.2 ((presentSymbols_sorted c).imp fun h => .inr ⟨rfl, h⟩)
  · simp only [List.forall_mem_map]
    exact fun _ _ _ _ => .inl hxy

theorem clash_iff_mem_symbolPairs {c : Vector CodeEntry 256} {x y : Byte} :
    Clash c x y ↔ (x, y) ∈ symbolPairs c ∧ clashTest c (x, y) = true := by
  rw [symbolPairs, List.pair_mem_product, mem_presentSymbols, mem_presentSymbols, clashTest,
    Bool.and_eq_true, bne_iff_ne, isPrefix_iff, Clash]
  tauto

/-- DC_VALIDATE tests the pairs of present symbols in lexicographic order. -/
theorem firstClash_readTable (c : Vector CodeEntry 256) :
    firstClash (readTable c) = (symbolPairs c).find? (clashTest c) := by
  simp only [firstClash, readTable_eq, symbolPairs, List.product, List.findSome?_map, List.find?_map,
    List.find?_flatMap, Option.map_map]
  rfl

/-- In a list in the order of `r` the first element that passes a test is one no other comes before. -/
theorem find?_eq_some_of_first {α : Type} {r : α → α → Prop} {p : α → Bool} {l : List α} {a : α}
    (hl : l.Pairwise r) (ha : a ∈ l) (hp : p a = true) (hfirst : ∀ b ∈ l, p b = true → ¬ r b a) :
    l.find? p = some a := by
  induction l with
  | nil => cases ha
  | cons b l ih =>
    obtain ⟨hb, hl⟩ := List.pairwise_cons.1 hl
    rcases List.mem_cons.1 ha with rfl | ha
    · exact List.find?_cons_of_pos hp
    · have hnot : ¬ p b = true := fun h => hfirst b List.mem_cons_self h (hb a ha)
      rw [List.find?_cons_of_neg hnot]
      exact ih hl ha fun z hz => hfirst z (List.mem_cons_of_mem _ hz)

theorem firstClash_eq_some {c : Vector CodeEntry 256} {x y : Byte} (h : Clash c x y)
    (hfirst : ∀ x' y', Clash c x' y' → x < x' ∨ (x = x' ∧ y ≤ y')) :
    firstClash (readTable c) = some (x, y) := by
  obtain ⟨hmem, htest⟩ := clash_iff_mem_symbolPairs.1 h
  rw [firstClash_readTable]
  refine find?_eq_some_of_first (symbolPairs_sorted c) hmem htest fun ⟨x', y'⟩ hmem' htest' hbefore => ?_
  have hle := hfirst x' y' (clash_iff_mem_symbolPairs.2 ⟨hmem', htest'⟩)
  simp only [PairBefore, BitVec.lt_def, BitVec.le_def, ← BitVec.toNat_inj] at hle hbefore
  omega

theorem firstClash_eq_none_iff (c : Vector CodeEntry 256) :
    firstClash (readTable c) = none ↔ PrefixFree c := by
  rw [firstClash_readTable, List.find?_eq_none, PrefixFree]
  exact ⟨fun h x y hc => h _ (clash_iff_mem_symbolPairs.1 hc).1 (clash_iff_mem_symbolPairs.1 hc).2,
    fun h p hp ht => h p.1 p.2 (clash_iff_mem_symbolPairs.2 ⟨hp, ht⟩)⟩

/-- R237: the ERR_INFO word of a clash, as a number. -/
theorem clashInfo_eq (x y : Byte) : clashInfo x y = BitVec.ofNat 32 (256 * y.toNat + x.toNat) := by
  apply BitVec.eq_of_toNat_eq
  have happend : (y ++ x).toNat = 256 * y.toNat + x.toNat := by
    rw [BitVec.toNat_append, ← Nat.shiftLeft_add_eq_or_of_lt x.isLt, Nat.shiftLeft_eq, Nat.mul_comm]
  rw [clashInfo, BitVec.toNat_setWidth, happend, BitVec.toNat_ofNat]

/-! ### The look-up (R184) -/

theorem lookupCode_eq_some {c : Vector CodeEntry 256} {p : BitString} {x : Byte}
    (h : lookupCode (readTable c) p = some x) : Present c x ∧ codeOf c x = p := by
  obtain ⟨e, he, rfl⟩ := Option.map_eq_some_iff.1 h
  have hcode := List.find?_some he
  have hmem := List.mem_of_find?_eq_some he
  rw [readTable_eq] at hmem
  obtain ⟨y, hy, rfl⟩ := List.mem_map.1 hmem
  exact ⟨mem_presentSymbols.1 hy, beq_iff_eq.1 hcode⟩

theorem lookupCode_eq_none {c : Vector CodeEntry 256} {p : BitString}
    (h : ∀ x, Present c x → codeOf c x ≠ p) : lookupCode (readTable c) p = none :=
  Option.eq_none_iff_forall_ne_some.2 fun x hx =>
    h x (lookupCode_eq_some hx).1 (lookupCode_eq_some hx).2

/-- In a table without clashes only the symbol itself has a code that starts its code. -/
theorem PrefixFree.eq_of_prefix {c : Vector CodeEntry 256} (hfree : PrefixFree c) {x y : Byte}
    (hx : Present c x) (hy : Present c y) (h : codeOf c x <+: codeOf c y) : x = y :=
  by_contra fun hne => hfree x y ⟨hne, hx, hy, h⟩

theorem lookupCode_codeOf {c : Vector CodeEntry 256} (hfree : PrefixFree c) {x : Byte}
    (hx : Present c x) : lookupCode (readTable c) (codeOf c x) = some x := by
  cases h : lookupCode (readTable c) (codeOf c x) with
  | none =>
    have hnone := List.find?_eq_none.1 (Option.map_eq_none_iff.1 h) (x, codeOf c x)
      (by rw [readTable_eq]; exact List.mem_map_of_mem (mem_presentSymbols.2 hx))
    simp at hnone
  | some y =>
    obtain ⟨hy, hcode⟩ := lookupCode_eq_some h
    rw [hfree.eq_of_prefix hy hx (hcode ▸ List.prefix_refl _)]

/-- A part of a code that does not reach its end is no code. -/
theorem lookupCode_of_append {c : Vector CodeEntry 256} (hfree : PrefixFree c) {x : Byte}
    (hx : Present c x) {p q : BitString} (h : p ++ q = codeOf c x) (hq : q ≠ []) :
    lookupCode (readTable c) p = none := by
  refine lookupCode_eq_none fun y hy hcode => hq ?_
  obtain rfl := hfree.eq_of_prefix hy hx (hcode ▸ h ▸ List.prefix_append p q)
  rw [hcode] at h
  exact List.append_right_eq_self.1 h

theorem codeOf_length_le_maxLen (c : Vector CodeEntry 256) (x : Byte) :
    (codeOf c x).length ≤ maxLen c := by
  rw [codeOf, code_length]
  exact (maxLen_le_iff c _).1 (Nat.le_refl _) x

end Sys2Proof.Machine
end

section
/-! SUPPORT. The decoder's scan, code by code: where it stands in the stream, what it has written, and how
it ends (R183 to R186, R189). -/

namespace Sys2Proof.Machine

/-! ### The stream (R183) -/

/-- The `n` stream bits of a memory from position `pos` on. -/
def bitsFrom (m : ByteMem) (pos n : Nat) : BitString := (List.range' pos n).map (streamBit m)

theorem bitsFrom_length (m : ByteMem) (pos n : Nat) : (bitsFrom m pos n).length = n := by
  simp [bitsFrom]

/-- A stream of `n` bits with a first one: that bit and the others behind it. -/
theorem bitsFrom_eq_cons {m : ByteMem} {pos n : Nat} {b : Bool} {p : BitString}
    (h : bitsFrom m pos n = b :: p) :
    n = p.length + 1 ∧ streamBit m pos = b ∧ bitsFrom m (pos + 1) p.length = p := by
  obtain rfl : n = p.length + 1 := by rw [← bitsFrom_length m pos n, h, List.length_cons]
  obtain ⟨hb, hp⟩ := List.cons.inj h
  exact ⟨rfl, hb, hp⟩

theorem inStream_eq_bitsFrom (s : State) : inStream s = bitsFrom s.inMem 0 s.bitLen.toNat := by
  rw [inStream, bitsFrom, List.range_eq_range']

/-- Where the stream starts with `p`, the rest of it stands behind `p`. -/
theorem bitsFrom_append {m : ByteMem} {pos n : Nat} {p q : BitString} (h : bitsFrom m pos n = p ++ q) :
    bitsFrom m (pos + p.length) q.length = q := by
  induction p generalizing pos n with
  | nil =>
    obtain rfl : n = q.length := by rw [← bitsFrom_length m pos n, h, List.nil_append]
    exact h
  | cons b p ih =>
    obtain ⟨-, -, htail⟩ := bitsFrom_eq_cons h
    have hrest := ih htail
    rwa [Nat.add_assoc, Nat.add_comm 1] at hrest

/-! ### One round -/

@[simp] theorem scanInput_outCap (s : State) : (scanInput s).outCap = s.params.outCap := rfl
@[simp] theorem scanInput_maxLen (s : State) : (scanInput s).maxLen = maxLen s.code := rfl
@[simp] theorem scanInput_table (s : State) : (scanInput s).table = readTable s.code := rfl
@[simp] theorem scanInput_mem (s : State) : (scanInput s).mem = s.inMem := rfl

theorem scan_match {x : ScanInput} {pos : Nat} {cand : BitString} {b : Bool} {y : Byte}
    (hb : streamBit x.mem (pos + cand.length) = b) (h : lookupCode x.table (cand ++ [b]) = some y)
    (rest n : Nat) (out : ByteMem) : scan x (rest + 1) pos cand n out =
      if n = x.outCap then .failed .outOverflow pos
      else scan x rest (pos + (cand ++ [b]).length) [] (n + 1) (out.set n y) := by
  simp only [scan, hb, h]

theorem scan_grow {x : ScanInput} {pos : Nat} {cand : BitString} {b : Bool}
    (hb : streamBit x.mem (pos + cand.length) = b) (h : lookupCode x.table (cand ++ [b]) = none)
    (rest n : Nat) (out : ByteMem) : scan x (rest + 1) pos cand n out =
      if x.maxLen ≤ (cand ++ [b]).length then .failed .decNoMatch pos
      else if rest = 0 then .failed .decTruncated pos
      else scan x rest pos (cand ++ [b]) n out := by
  simp only [scan, hb, h]

/-- The errors a scan can end with. -/
theorem scan_failed_cases {x : ScanInput} {rest pos n : Nat} {cand : BitString} {out : ByteMem}
    {e : ErrCode} {pos' : Nat} (h : scan x rest pos cand n out = .failed e pos') :
    e = .decNoMatch ∨ e = .decTruncated ∨ (e = .outOverflow ∧ x.outCap < n + rest) := by
  induction rest generalizing pos cand n out with
  | zero => cases h
  | succ rest ih =>
    cases hl : lookupCode x.table (cand ++ [streamBit x.mem (pos + cand.length)]) with
    | some y =>
      rw [scan_match rfl hl] at h
      split_ifs at h with hn
      · cases h
        exact .inr (.inr ⟨rfl, by omega⟩)
      · rw [Nat.add_comm rest, ← Nat.add_assoc]
        exact ih h
    | none =>
      rw [scan_grow rfl hl] at h
      split_ifs at h
      · cases h
        exact .inl rfl
      · cases h
        exact .inr (.inl rfl)
      · obtain h | h | ⟨h, hroom⟩ := ih h
        · exact .inl h
        · exact .inr (.inl h)
        · exact .inr (.inr ⟨h, by omega⟩)

/-- The scan reads only the positions it has bits left for. -/
theorem scan_congr {x : ScanInput} {m : ByteMem} {rest pos n : Nat} {cand : BitString} {out : ByteMem}
    (h : ∀ i < pos + cand.length + rest, streamBit m i = streamBit x.mem i) :
    scan { x with mem := m } rest pos cand n out = scan x rest pos cand n out := by
  induction rest generalizing pos cand n out with
  | zero => rfl
  | succ rest ih =>
    have hbit := h (pos + cand.length) (by omega)
    have hrest : ∀ i < pos + (cand ++ [streamBit x.mem (pos + cand.length)]).length + rest,
        streamBit m i = streamBit x.mem i := fun i hi => h i (by
      rw [List.length_append, List.length_singleton] at hi
      omega)
    cases hl : lookupCode x.table (cand ++ [streamBit x.mem (pos + cand.length)]) with
    | some y =>
      rw [scan_match rfl hl, scan_match (x := { x with mem := m }) hbit hl]
      exact if_congr Iff.rfl rfl (ih hrest)
    | none =>
      rw [scan_grow rfl hl, scan_grow (x := { x with mem := m }) hbit hl]
      exact if_congr Iff.rfl rfl (if_congr Iff.rfl rfl (ih hrest))

/-! ### One code and many -/

/-- R185: where the stream goes on with the rest `p` of a present code, the scan comes to its symbol. -/
theorem scan_code {s : State} (hfree : PrefixFree s.code) {y : Byte} (hy : Present s.code y)
    {cand p r : BitString} (hcode : cand ++ p = codeOf s.code y) (hp : p ≠ []) {pos rest : Nat}
    (hbits : bitsFrom s.inMem (pos + cand.length) rest = p ++ r) (n : Nat) (out : ByteMem) :
    scan (scanInput s) rest pos cand n out =
      if n = s.params.outCap then .failed .outOverflow pos
      else scan (scanInput s) r.length (pos + (codeOf s.code y).length) [] (n + 1) (out.set n y) := by
  induction p generalizing cand rest with
  | nil => exact absurd rfl hp
  | cons b p ih =>
    rw [List.cons_append] at hbits
    obtain ⟨rfl, hb, htail⟩ := bitsFrom_eq_cons hbits
    have hcand : (cand ++ [b]) ++ p = codeOf s.code y := by rwa [← List.append_cons]
    cases p with
    | nil =>
      rw [List.append_nil] at hcand
      rw [scan_match (x := scanInput s) hb (hcand ▸ lookupCode_codeOf hfree hy), hcand]
      rfl
    | cons b' p =>
      have hmax : ¬ maxLen s.code ≤ (cand ++ [b]).length := by
        have hle := codeOf_length_le_maxLen s.code y
        rw [← hcand, List.length_append, List.length_cons] at hle
        omega
      rw [scan_grow (x := scanInput s) hb
        (lookupCode_of_append hfree hy hcand (List.cons_ne_nil _ _)), scanInput_maxLen, if_neg hmax,
        if_neg (by simp)]
      refine ih hcand (List.cons_ne_nil _ _) ?_
      rwa [List.length_append, List.length_singleton, ← Nat.add_assoc]

/-- R184, R185: a present code at the position the scan stands at decodes to its symbol. -/
theorem scan_symbol {s : State} (hfree : PrefixFree s.code) {y : Byte} (hy : Present s.code y)
    {r : BitString} {pos rest : Nat} (hbits : bitsFrom s.inMem pos rest = codeOf s.code y ++ r)
    (n : Nat) (out : ByteMem) : scan (scanInput s) rest pos [] n out =
      if n = s.params.outCap then .failed .outOverflow pos
      else scan (scanInput s) r.length (pos + (codeOf s.code y).length) [] (n + 1) (out.set n y) :=
  scan_code (cand := []) hfree hy rfl ((present_iff_codeOf_ne_nil _ _).1 hy) hbits n out

/-- The symbols `xs` written to consecutive bytes from index `n` on (R185). -/
def ByteMem.setBytes (m : ByteMem) : Nat → List Byte → ByteMem
  | _, [] => m
  | n, x :: xs => (m.set n x).setBytes (n + 1) xs

theorem outByte_setBytes_outside (m : ByteMem) {n i : Nat} {xs : List Byte}
    (h : i < n ∨ n + xs.length ≤ i) : outByte (m.setBytes n xs) i = outByte m i := by
  induction xs generalizing m n with
  | nil => rfl
  | cons x xs ih =>
    rw [List.length_cons] at h
    rw [ByteMem.setBytes, ih _ (by omega), outByte_set_other _ _ (by omega)]

theorem outByte_setBytes_inside (m : ByteMem) (n : Nat) {i : Nat} {xs : List Byte}
    (h : i < xs.length) : outByte (m.setBytes n xs) (n + i) = xs[i] := by
  induction xs generalizing m n i with
  | nil => cases h
  | cons x xs ih =>
    cases i with
    | zero =>
      exact (outByte_setBytes_outside _ (.inl (Nat.lt_succ_self n))).trans (outByte_set_same _ _ _)
    | succ i =>
      have hi : i < xs.length := Nat.lt_of_succ_lt_succ h
      have hindex : n + (i + 1) = n + 1 + i := by omega
      rw [ByteMem.setBytes, hindex, ih _ _ hi, List.getElem_cons_succ]

theorem streamOf_cons (c : Vector CodeEntry 256) (x : Byte) (xs : List Byte) :
    streamOf c (x :: xs) = codeOf c x ++ streamOf c xs := rfl

/-- R185: the scan goes through the codes of `xs`, writing each symbol, and comes to what follows. -/
theorem scan_symbols {s : State} (hfree : PrefixFree s.code) {xs : List Byte}
    (hxs : ∀ x ∈ xs, Present s.code x) {r : BitString} {pos rest n : Nat}
    (hbits : bitsFrom s.inMem pos rest = streamOf s.code xs ++ r)
    (hroom : n + xs.length ≤ s.params.outCap) (out : ByteMem) :
    scan (scanInput s) rest pos [] n out =
      scan (scanInput s) r.length (pos + (streamOf s.code xs).length) [] (n + xs.length)
        (out.setBytes n xs) := by
  induction xs generalizing pos rest n out with
  | nil =>
    obtain rfl : rest = r.length := by
      rw [← bitsFrom_length s.inMem pos rest, hbits]
      rfl
    rfl
  | cons x xs ih =>
    rw [streamOf_cons, List.append_assoc] at hbits
    rw [List.length_cons] at hroom
    rw [scan_symbol hfree (hxs x List.mem_cons_self) hbits, if_neg (by omega),
      ih (fun y hy => hxs y (List.mem_cons_of_mem _ hy)) (bitsFrom_append hbits) (by omega),
      streamOf_cons, List.length_append, List.length_cons, ByteMem.setBytes]
    simp only [Nat.add_assoc, Nat.add_comm 1]

/-- R186: where no present code starts the rest of the stream, the scan ends without a match. -/
theorem scan_noMatch {s : State} {cand p : BitString}
    (hnone : ∀ x, Present s.code x → ¬ codeOf s.code x <+: cand ++ p) (hp : p ≠ []) {pos rest : Nat}
    (hbits : bitsFrom s.inMem (pos + cand.length) rest = p) (n : Nat) (out : ByteMem) :
    scan (scanInput s) rest pos cand n out = .failed
      (if maxLen s.code ≤ (cand ++ p).length then .decNoMatch else .decTruncated) pos := by
  induction p generalizing cand rest with
  | nil => exact absurd rfl hp
  | cons b p ih =>
    obtain ⟨rfl, hb, htail⟩ := bitsFrom_eq_cons hbits
    rw [List.append_cons] at hnone ⊢
    have hl : lookupCode (scanInput s).table (cand ++ [b]) = none :=
      lookupCode_eq_none fun x hx hcode => hnone x hx (hcode ▸ List.prefix_append _ _)
    rw [scan_grow (x := scanInput s) hb hl, scanInput_maxLen]
    by_cases hmax : maxLen s.code ≤ (cand ++ [b]).length
    · rw [if_pos hmax, if_pos (hmax.trans (List.prefix_append _ _).length_le)]
    · rw [if_neg hmax]
      cases p with
      | nil => rw [if_pos List.length_nil, List.append_nil, if_neg hmax]
      | cons b' p =>
        rw [if_neg (by simp)]
        refine ih hnone (List.cons_ne_nil _ _) ?_
        rwa [List.length_append, List.length_singleton, ← Nat.add_assoc]

end Sys2Proof.Machine
end

section
/-! SUPPORT. DECODE: its ends with their guards, what its scan leaves on a stream of codes, and the round
trip with ENCODE (R180 to R189, R206). -/

namespace Sys2Proof.Machine

/-! ### How a DECODE ends -/

/-- The states a DECODE of `s` can end in, each with the checks of R180 and R182 that lead to it. -/
inductive DecodeEnd (s : State) : State → Prop
  | lenRange (h : s.params.inCap < s.inLen.toNat) : DecodeEnd s (s.complete 4 0)
  | bitLenRange (h : s.inLen.toNat ≤ s.params.inCap) (h' : 8 * s.inLen.toNat < s.bitLen.toNat) :
      DecodeEnd s (s.complete 5 0)
  | clash {a b : Byte} (hr : RangeOk s) (hc : firstClash (readTable s.code) = some (a, b)) :
      DecodeEnd s (s.complete 3 (clashInfo a b))
  | done {n : Nat} {out : ByteMem} (hr : RangeOk s) (hc : firstClash (readTable s.code) = none)
      (hs : scan (scanInput s) s.bitLen.toNat 0 [] 0 s.outMem = .done n out) :
      DecodeEnd s ((decodeResult n out (decodeTableRegs s)).complete 0 0)
  | failed {e : ErrCode} {pos : Nat} (hr : RangeOk s) (hc : firstClash (readTable s.code) = none)
      (hs : scan (scanInput s) s.bitLen.toNat 0 [] 0 s.outMem = .failed e pos) :
      DecodeEnd s ((decodeFailure (decodeTableRegs s)).complete e.num (BitVec.ofNat 32 pos))

theorem DecodeEnd.exec_eq {s t : State} (h : DecodeEnd s t) : exec .decode s = .next t := by
  cases h with
  | lenRange h => exact exec_decode_range s h
  | bitLenRange h h' => exact exec_decode_bitLen s h h'
  | clash hr hc => exact exec_decode_clash s hr hc
  | done hr hc hs => exact exec_decode_done s hr hc hs
  | failed hr hc hs => exact exec_decode_failed s hr hc hs

theorem exists_decodeEnd (s : State) : ∃ t, DecodeEnd s t := by
  rcases Nat.lt_or_ge s.params.inCap s.inLen.toNat with h | hin
  · exact ⟨_, .lenRange h⟩
  rcases Nat.lt_or_ge (8 * s.inLen.toNat) s.bitLen.toNat with h | hbit
  · exact ⟨_, .bitLenRange hin h⟩
  have hr : RangeOk s := ⟨hin, hbit⟩
  match hc : firstClash (readTable s.code) with
  | some (a, b) => exact ⟨_, .clash hr hc⟩
  | none =>
    match hs : scan (scanInput s) s.bitLen.toNat 0 [] 0 s.outMem with
    | .done n out => exact ⟨_, .done hr hc hs⟩
    | .failed e pos => exact ⟨_, .failed hr hc hs⟩

theorem decodeEnd_of_exec {s t : State} (h : exec .decode s = .next t) : DecodeEnd s t := by
  obtain ⟨t', hend⟩ := exists_decodeEnd s
  cases hend.exec_eq.symm.trans h
  exact hend

/-- What an error code of DECODE says of the state it started from. -/
theorem DecodeEnd.errCode_cause {s t : State} (h : DecodeEnd s t) :
    (t.errCode = 4 ∨ t.errCode = 5 → ¬ RangeOk s) ∧ (t.errCode = 3 → ¬ PrefixFree s.code) ∧
    (t.errCode = 6 → s.params.outCap < 8 * s.params.inCap) := by
  cases h with
  | lenRange h => simp [RangeOk, Nat.not_le.2 h]
  | bitLenRange h h' => simp [RangeOk, Nat.not_le.2 h']
  | clash hr hc => simp [← firstClash_eq_none_iff, hc]
  | done hr hc hs => simp
  | failed hr hc hs =>
    obtain ⟨hin, hbit⟩ := hr
    obtain rfl | rfl | ⟨rfl, hroom⟩ := scan_failed_cases hs
    · simp [ErrCode.num]
    · simp [ErrCode.num]
    · rw [scanInput_outCap] at hroom
      simp only [complete_errCode, ErrCode.num]
      exact ⟨fun h => absurd h (by decide), fun h => absurd h (by decide), fun _ => by omega⟩

/-- Settles O35: the checks are the first of DECODE's, and no end past them has their codes. -/
theorem decodeLengthChecks : Obligations.DecodeLengthChecks := by
  unfold Obligations.DecodeLengthChecks
  refine fun s => ⟨exec_decode_range s, exec_decode_bitLen s, fun hr => ?_⟩
  obtain ⟨t, h⟩ := exists_decodeEnd s
  obtain ⟨hrange, -, -⟩ := h.errCode_cause
  exact ⟨t, h.exec_eq, fun h4 => hrange (.inl h4) hr, fun h5 => hrange (.inr h5) hr⟩

/-- Settles O36: DC_VALIDATE tests the pairs in lexicographic order, and E_TABLE_INVALID has no other
cause than a clash. -/
theorem decodeRefusesClashingTable : Obligations.DecodeRefusesClashingTable := by
  unfold Obligations.DecodeRefusesClashingTable
  refine ⟨fun s x y hr hclash hfirst => ?_, fun s hfree => ?_⟩
  · rw [exec_decode_clash s hr (firstClash_eq_some hclash hfirst), clashInfo_eq]
    rfl
  · obtain ⟨t, h⟩ := exists_decodeEnd s
    obtain ⟨-, htable, -⟩ := h.errCode_cause
    exact ⟨t, h.exec_eq, fun h3 => htable h3 hfree⟩

/-! ### The registers a scan leaves -/

/-- The state of a DECODE that succeeded with `n` symbols, by field (R181, R187). -/
theorem exec_decode_succeeds {s : State} (hr : RangeOk s) (hfree : PrefixFree s.code) {n : Nat}
    {out : ByteMem} (hs : scan (scanInput s) s.bitLen.toNat 0 [] 0 s.outMem = .done n out) :
    exec .decode s = .next { s with
      phase := .idle, done := true, err := false, errCode := 0, errInfo := 0, outMem := out,
      outLen := BitVec.ofNat 32 n, lastBits := if 0 < n then 8 else 0,
      nsym := BitVec.ofNat 9 (presentCount s.code),
      maxCodeLen := BitVec.ofNat 8 (longestLen s.code) } := by
  rw [exec_decode_done s hr ((firstClash_eq_none_iff _).2 hfree) hs, ← readTable_length,
    ← maxLen_eq_longestLen]
  rfl

/-- The state of a DECODE whose scan failed, by field (R181, R235). -/
theorem exec_decode_fails {s : State} (hr : RangeOk s) (hfree : PrefixFree s.code) {e : ErrCode}
    {pos : Nat} (hs : scan (scanInput s) s.bitLen.toNat 0 [] 0 s.outMem = .failed e pos) :
    exec .decode s = .next { s with
      phase := .idle, done := true, err := true, errCode := e.num, errInfo := BitVec.ofNat 32 pos,
      outMem := ByteMem.any s.draws, draws := s.draws + 1, outLen := 0, lastBits := 0,
      nsym := BitVec.ofNat 9 (presentCount s.code),
      maxCodeLen := BitVec.ofNat 8 (longestLen s.code) } := by
  have herr : (e.num != 0) = true := by cases e <;> rfl
  rw [exec_decode_failed s hr ((firstClash_eq_none_iff _).2 hfree) hs, ← readTable_length,
    ← maxLen_eq_longestLen, State.complete, State.flagsAtCompletion, herr]
  rfl

/-! ### A stream of codes -/

/-- The scan of a stream that starts with the codes of `xs` goes through them and comes to the rest. -/
theorem scan_inStream {s : State} {xs : List Byte} {r : BitString} (hfree : PrefixFree s.code)
    (hxs : ∀ x ∈ xs, Present s.code x) (hstream : inStream s = streamOf s.code xs ++ r)
    (hroom : xs.length ≤ s.params.outCap) : scan (scanInput s) s.bitLen.toNat 0 [] 0 s.outMem =
      scan (scanInput s) r.length (streamOf s.code xs).length [] xs.length (s.outMem.setBytes 0 xs) ∧
    bitsFrom s.inMem (streamOf s.code xs).length r.length = r := by
  rw [inStream_eq_bitsFrom] at hstream
  have hscan := scan_symbols hfree hxs hstream (n := 0) (by omega) s.outMem
  have hrest := bitsFrom_append hstream
  simp only [Nat.zero_add] at hscan hrest
  exact ⟨hscan, hrest⟩

/-- Settles O37: the scan goes through the codes and then has no bit left. -/
theorem decodeReproducesSymbols : Obligations.DecodeReproducesSymbols := by
  unfold Obligations.DecodeReproducesSymbols
  intro s xs hr hfree hxs hstream hroom
  obtain ⟨hscan, -⟩ := scan_inStream (r := []) hfree hxs (by rwa [List.append_nil]) hroom
  have hbits : (if 0 < xs.length then 8 else 0 : BitVec 4) = if xs = [] then 0 else 8 := by
    cases xs <;> rfl
  refine ⟨s.outMem.setBytes 0 xs, ?_, fun i h => ?_, fun i h => ?_⟩
  · rw [exec_decode_succeeds hr hfree hscan, hbits]
  · have hbyte := outByte_setBytes_inside s.outMem 0 h
    rwa [Nat.zero_add] at hbyte
  · exact outByte_setBytes_outside _ (.inr (by omega))

/-- Settles O38: past the codes no candidate is a code, until MAX_CODE_LEN or the stream's end stops the
scan. -/
theorem decodeFailsWithoutMatch : Obligations.DecodeFailsWithoutMatch := by
  unfold Obligations.DecodeFailsWithoutMatch
  intro s xs rest hr hfree hxs hstream hne hnone hroom
  obtain ⟨hscan, hrest⟩ := scan_inStream hfree hxs hstream hroom
  rw [scan_noMatch (cand := []) hnone hne hrest] at hscan
  rw [exec_decode_fails hr hfree hscan, List.nil_append, maxLen_eq_longestLen, apply_ite ErrCode.num]
  rfl

/-- Settles O39: one more code meets a full OUT_MEM; and as each symbol takes a bit of the stream, OUT_MEM
cannot be full before the stream's end when it has a byte for every bit of IN_MEM. -/
theorem decodeOverflows : Obligations.DecodeOverflows := by
  unfold Obligations.DecodeOverflows
  refine ⟨fun s xs x rest hr hfree hxs hx hstream hroom => ?_, fun s hcap => ?_⟩
  · rw [List.append_assoc] at hstream
    obtain ⟨hscan, hrest⟩ := scan_inStream hfree hxs hstream hroom.le
    rw [scan_symbol hfree hx hrest, if_pos hroom] at hscan
    exact exec_decode_fails hr hfree hscan
  · obtain ⟨t, h⟩ := exists_decodeEnd s
    obtain ⟨-, -, hover⟩ := h.errCode_cause
    exact ⟨t, h.exec_eq, fun h6 => absurd (hover h6) (Nat.not_lt.2 hcap)⟩

/-! ### Padding, and the round trip (R188) -/

/-- Settles O40: only the scan reads IN_MEM, and it stops at BITLEN. -/
theorem decodeIgnoresPadding : Obligations.DecodeIgnoresPadding := by
  unfold Obligations.DecodeIgnoresPadding
  intro s t m hagree hexec
  have hscan : scan (scanInput { s with inMem := m }) s.bitLen.toNat 0 [] 0 s.outMem =
      scan (scanInput s) s.bitLen.toNat 0 [] 0 s.outMem :=
    scan_congr (x := scanInput s) fun i hi => hagree i (by simpa using hi)
  cases decodeEnd_of_exec hexec with
  | lenRange h => exact exec_decode_range { s with inMem := m } h
  | bitLenRange h h' => exact exec_decode_bitLen { s with inMem := m } h h'
  | clash hr hc => exact exec_decode_clash { s with inMem := m } hr hc
  | done hr hc hs => exact exec_decode_done { s with inMem := m } hr hc (hscan.trans hs)
  | failed hr hc hs => exact exec_decode_failed { s with inMem := m } hr hc (hscan.trans hs)

/-- A memory whose bytes hold `bits`, bit 7 − b of byte i being bit 8i + b, has them as its stream
(R77, R172). -/
theorem inStream_eq_of_bytes {s : State} {bits : BitString} (hlen : s.bitLen.toNat = bits.length)
    (h : ∀ i, i < (bits.length + 7) / 8 → ∀ b, b < 8 →
      (inByte s.inMem i).getLsbD (7 - b) = bits.getD (8 * i + b) false) : inStream s = bits := by
  refine List.ext_getElem (by simp [inStream, hlen]) fun j _ hj => ?_
  have hbit := h (j / 8) (by omega) (j % 8) (Nat.mod_lt _ (by omega))
  rw [Nat.div_add_mod, List.getD_eq_getElem _ _ hj] at hbit
  simpa [inStream, streamBit] using hbit

/-- Settles O41: the stream of the copied bytes is the codes of the input, which are those of a table
without clashes, and the input has no more bytes than OUT_MEM. -/
theorem decodeOfEncodeIsInput : Obligations.DecodeOfEncodeIsInput := by
  unfold Obligations.DecodeOfEncodeIsInput
  intro s hready
  obtain ⟨t, hexec, hfree, hmem⟩ := encodeTableIsPrefixFree s hready
  obtain ⟨t', n, hexec', rfl, hbytes, -, -, houtLen, -⟩ := encodePacksCodes s hready.inLen
  cases hexec.symm.trans hexec'
  obtain ⟨t', hexec', -, hshort, hbitLen, -, hcap, hroom⟩ := encodeCannotOverflow s hready
  cases hexec.symm.trans hexec'
  have houtLen : t.outLen.toNat = ((streamOf t.code (inputBytes s)).length + 7) / 8 := by
    have := s.inLen.isLt
    rw [houtLen, BitVec.toNat_ofNat]
    omega
  refine ⟨t, hexec, fun u hparams hcode hbits hbytesLen hcopy => ?_⟩
  rw [exec_params hexec] at hparams
  have hr : RangeOk u := by
    rw [RangeOk, hparams, hbits, hbytesLen, hbitLen, houtLen]
    omega
  have hstream : inStream u = streamOf u.code (inputBytes s) := by
    rw [hcode]
    refine inStream_eq_of_bytes (by rw [hbits, hbitLen]) fun i hi b hb => ?_
    rw [hcopy i (houtLen ▸ hi)]
    exact hbytes i hi b hb
  obtain ⟨m, hdecode, hout, -⟩ := decodeReproducesSymbols u (inputBytes s) hr (hcode ▸ hfree)
    (fun x hx => hcode ▸ (hmem x).1.1 hx) hstream
    (by rw [inputBytes_length, hparams]; omega)
  refine ⟨_, hdecode, rfl, ?_, fun i hi => ?_⟩
  · rw [inputBytes_length, BitVec.ofNat_toNat, BitVec.setWidth_eq]
  · rw [hout i (by rwa [inputBytes_length])]
    simp [inputBytes]

end Sys2Proof.Machine
end

section
/-! SUPPORT. The commands from issue to completion: how a word enters and leaves PHASE, what every
completion leaves in the flags, and what ENCODE's result depends on (R202 to R208, R230). -/

namespace Sys2Proof.Machine

/-! ### ENCODE depends on its input bytes alone (R132, R205, R272) -/

/-- The bytes the packer began hold the stream alone, whatever was in OUT_MEM before (R171, R172). -/
theorem outByte_packInput_congr (c : Vector CodeEntry 256) (xs : List Byte) (m m' : ByteMem) {i : Nat}
    (hi : i < ((streamOf c xs).length + 7) / 8) :
    outByte (packInput c xs m).mem i = outByte (packInput c xs m').mem i := by
  refine BitVec.eq_of_getLsbD_eq fun j hj => ?_
  have bit : ∀ m, (outByte (packInput c xs m).mem i).getLsbD (7 - (7 - j)) =
      (streamOf c xs).getD (8 * i + (7 - j)) false :=
    fun m => (packInput_holds c xs m).written i hi (7 - j) (by omega)
  rw [Nat.sub_sub_self (by omega)] at bit
  rw [bit m, bit m']

/-- Settles O34: with the queue empty the table is a function of the input bytes, and the stream's bits
fill every byte up to OUT_LEN. -/
theorem encodeDependsOnInputOnly : Obligations.EncodeDependsOnInputOnly := by
  unfold Obligations.EncodeDependsOnInputOnly
  intro s s' hready hready' hbytes
  have htree : encodeTree s = encodeTree s' := by
    rw [encodeTree, encodeTree, hbytes, hready.queue, hready'.queue]
  have hcodes : encodeCodes s = encodeCodes s' := congrArg generateCodes htree
  have hbp : (encodePacked s).bp = (encodePacked s').bp := by
    rw [packInput_bp, packInput_bp, hcodes, hbytes]
  refine ⟨_, _, exec_encode_run s hready.inLen, exec_encode_run s' hready'.inLen,
    congrArg countFreq hbytes,
    congrArg (fun xs => BitVec.ofNat 9 (distinctCount (countFreq xs))) hbytes,
    congrArg Tree.node htree, congrArg Tree.root htree, congrArg Tree.count htree, hcodes,
    congrArg (fun c => BitVec.ofNat 8 (maxLen c)) hcodes,
    congrArg (BitVec.ofNat 32) hbp,
    congrArg (fun n => BitVec.ofNat 32 ((n + 7) / 8)) hbp,
    congrArg (fun n => BitVec.ofNat 4 (lastBitsOf n)) hbp, fun i hi => ?_⟩
  rw [complete_outLen, encodeRun_outLen, packInput_bp, BitVec.toNat_ofNat] at hi
  rw [complete_outMem, complete_outMem, encodeRun_outMem, encodeRun_outMem,
    encodePacked, encodePacked, ← hcodes, ← hbytes]
  exact outByte_packInput_congr _ _ _ _ (hi.trans_le (Nat.mod_le _ _))

/-! ### Completion (R203, R204, R207, R230) -/

/-- Settles O42: each way a command ends is a `complete`, which sets ERR from the code it reports. -/
theorem everyCommandCompletes : Obligations.EveryCommandCompletes := by
  unfold Obligations.EveryCommandCompletes
  intro i s
  obtain ⟨t, ht⟩ := exec_answers i s
  obtain ⟨u, c, x, rfl, -, -⟩ := (exec_completes ht).flags
  exact ⟨_, ht, complete_phase c x u, complete_done c x u, by simp⟩

/-- Settles O18: NOP is the completion with code 0 and nothing before it. -/
theorem nopCompletes : Obligations.NopCompletes := exec_nop

/-- Settles O19: the tables CLEAR leaves are blank at every index. -/
theorem clearCompletes : Obligations.ClearCompletes := by
  unfold Obligations.ClearCompletes
  intro s
  refine ⟨_, exec_clear s, fun x _ => ?_, fun i _ => nodeAt_blank i, rfl⟩
  rw [complete_freq, clearRun_freq, complete_code, clearRun_code, codeAt_emptyCodes]
  exact ⟨freqAt_zero x, rfl, rfl⟩

/-- Settles O21: the precheck raises E_LEN_RANGE, whose code is 4, before any component runs. -/
theorem encodeLengthCheck : Obligations.EncodeLengthCheck := exec_encode_range

/-- Settles O22: past the precheck ENCODE is `encodeRun` and a completion with code 0. -/
theorem encodeCompletes : Obligations.EncodeCompletes :=
  fun s hin => ⟨_, exec_encode_run s hin, rfl⟩

/-! ### A command word in flight (R22, R202, R203, R208) -/

/-- R202: STATUS right after an issue is BUSY alone. -/
theorem statusWord_issue (v : Word) (s : State) : statusWord (s.issue v) = 1 := by
  simp [statusWord, State.busy]

/-- Settles O15: the write reaches CMD, where it issues the word. -/
theorem cmdWriteIssues : Obligations.CmdWriteIssues := by
  unfold Obligations.CmdWriteIssues
  intro s v hs
  have hissue : hostWrite 0x04 v s = (.okay 0, s.issue v) := hostWrite_reg_idle hs (r := .cmd) rfl
  rw [hissue]
  exact ⟨rfl, statusWord_issue v s, by simp [State.irq]⟩

theorem runWord_of_decode {v : Word} {i : Instr} (h : decode v = .ok i) (s : State) :
    runWord v s = exec i s := by
  simp [runWord, h]

/-- R208: a word that is no command's completes with E_ILLEGAL_CMD. -/
theorem runWord_illegal {v : Word} (h : ∀ i, v ≠ encode i) (s : State) :
    runWord v s = .next (s.complete 7 v) := by
  obtain ⟨e, he⟩ := (decode_error_iff v).2 h
  simp [runWord, he, execIllegal, ErrCode.num]

/-- With no turn left the BLOCK moves when a command is in flight (R263). -/
theorem nextTurn_of_busy {s : State} (hb : s.busy = true) (ht : s.turns = []) :
    nextTurn s = (.block, s) := by
  simp [nextTurn, ht, hb]

/-- R203: the BLOCK's turn with a word in flight runs the word, on the state with the turn taken. -/
theorem step_of_nextTurn_block {s s' : State} {v : Word} (hp : s.params.wf = true)
    (hn : nextTurn s = (.block, s')) (hr : s'.rst = false) (hv : s'.phase = .busy v) :
    step s = runWord v s' := by
  simp [step_eq s hp, hn, takeTurn, blockStep, hr, hv]

section InFlight
variable {s : State} {v : Word} (hp : s.params.wf = true) (hr : s.rst = false)
  (hv : s.phase = .busy v)
include hp hr hv

theorem step_of_blockTurn {ts : List Turn} (ht : s.turns = .block :: ts) :
    step s = runWord v { s with turns := ts } :=
  step_of_nextTurn_block hp (nextTurn_of_turns ht) hr hv

theorem step_of_noTurn (ht : s.turns = []) : step s = runWord v s :=
  step_of_nextTurn_block hp (nextTurn_of_busy (busy_of_busy hv) ht) hr hv

end InFlight

/-- Settles O20: the block runs the word, and the decoder refuses it. -/
theorem illegalWordCompletes : Obligations.IllegalWordCompletes := by
  unfold Obligations.IllegalWordCompletes
  intro s v hp hr hv h0 h1 h2 h3
  have hillegal : ∀ i, v ≠ encode i
    | .nop => h0
    | .encode => h1
    | .decode => h2
    | .clear => h3
  refine ⟨fun ts ht => ?_, fun ht => ?_⟩
  · rw [step_of_blockTurn hp hr hv ht, runWord_illegal hillegal]
    rfl
  · rw [step_of_noTurn hp hr hv ht, runWord_illegal hillegal]
    rfl

theorem withFetchWord_eq (s : State) (w : Word) : s.withFetchWord 32 w.toNat = s.withCommand w := by
  rw [State.withFetchWord, Nat.mod_eq_of_lt w.isLt, BitVec.ofNat_toNat, BitVec.setWidth_eq]

/-- Settles O49: the block runs the word, and the decoder answers the command; a word the host places
is in flight with no turn left. -/
theorem stepRunsDecodedCommand : Obligations.StepRunsDecodedCommand := by
  unfold Obligations.StepRunsDecodedCommand
  intro s i w hp hi
  refine ⟨fun hr hw => ⟨fun ts ht => ?_, fun ht => ?_⟩, ?_⟩
  · rw [step_of_blockTurn hp hr hw ht, runWord_of_decode hi]
  · rw [step_of_noTurn hp hr hw ht, runWord_of_decode hi]
  · rw [withFetchWord_eq, step_of_noTurn (s := s.withCommand w) hp rfl rfl rfl, runWord_of_decode hi]

end Sys2Proof.Machine
end

section
/-! SUPPORT. The last invariants of every step, the memory form and the held reset, and what an idle block
and a host leave of the interrupt and the error record (R238 to R241, R260, R262). -/

namespace Sys2Proof.Machine

/-! ### The form of the byte memories -/

/-- R78: the one memory a host writes is IN_MEM, a word at a time. -/
theorem write_inMem_wf {v : Word} {s s' : State} {t : Target} (hm : s.inMem.wf)
    (h : t.write v s = some s') : s'.inMem.wf := by
  obtain ⟨-, rfl⟩ | ⟨-, rfl⟩ | ⟨-, rfl⟩ | ⟨-, rfl⟩ | ⟨-, rfl⟩ | ⟨_, _, -, rfl⟩ | ⟨w, -, rfl⟩ :=
    write_cases h
  case inr.inr.inr.inr.inr.inr => exact ByteMem.setWord_wf hm w v
  all_goals exact hm

theorem Completes.memoryCanonical {s t : State} (h : s.MemoryCanonical) (hc : Completes s t) :
    t.MemoryCanonical := by
  obtain ⟨hi, ho⟩ := h
  cases hc with
  | flagsOnly c x _ => exact ⟨hi, ho⟩
  | cleared => exact ⟨hi, ho⟩
  | encoded => exact ⟨hi, packInput_wf (encodeCodes s) (inputBytes s) ho⟩
  | decoded n out hs => exact ⟨hi, scan_wf _ _ _ _ _ ho hs⟩
  | scanFailed e pos _ => exact ⟨hi, ByteMem.any_wf _⟩

theorem memoryCanonical_invariant : StepInvariant State.MemoryCanonical where
  agents _ _ h := { h with }
  draw h := { h with }
  write _ h hw := by
    obtain ⟨hi, ho⟩ := h
    exact ⟨write_inMem_wf hi hw, by rw [write_frame hw]; exact ho⟩
  completes _ h hc := hc.memoryCanonical h
  reset level _ := (resetStep_atReset level _).memoryCanonical

/-- Settles O55: a host's word, the packer and the scan write bytes in place by index, and a memory made
`any` lists none. -/
theorem stepKeepsMemoryCanonical : Obligations.StepKeepsMemoryCanonical :=
  fun _ _ h hs => memoryCanonical_invariant.step h hs

/-! ### The held reset (R260) -/

theorem write_rst {v : Word} {s s' : State} {t : Target} (h : t.write v s = some s') :
    s'.rst = s.rst := by
  rw [write_frame h]

theorem Completes.rst {s t : State} (h : Completes s t) : t.rst = s.rst := by
  cases h <;> rfl

theorem resetHeld_of_released {s : State} (h : s.rst = false) : s.ResetHeld :=
  fun hr => by simp [h] at hr

theorem resetHeld_invariant : StepInvariant State.ResetHeld where
  agents _ _ h hr := { h hr with }
  draw h hr := { h hr with }
  write hr _ hw := resetHeld_of_released ((write_rst hw).trans hr)
  completes hr _ hc := resetHeld_of_released (hc.rst.trans hr)
  reset level _ _ := resetStep_atReset level _

/-- Settles O59: an agent that changes block state moves only with `rst` released, which it leaves so, and
a turn of `rst` leaves the reset values. -/
theorem stepKeepsResetHeld : Obligations.StepKeepsResetHeld :=
  fun _ _ h hs => resetHeld_invariant.step h hs

/-! ### The error record (R238, R241) -/

/-- Of the accepted writes only an issue touches the error record, and it takes PHASE from idle. -/
theorem write_keeps_error {v : Word} {s s' : State} {t : Target} (hb : s.busy = false)
    (h : t.write v s = some s') : s'.errInfo = s.errInfo ∧
      (s'.phase = s.phase → s'.err = s.err ∧ s'.errCode = s.errCode) := by
  refine ⟨by rw [write_frame h], fun hp => ?_⟩
  obtain ⟨-, rfl⟩ | ⟨-, rfl⟩ | ⟨-, rfl⟩ | ⟨-, rfl⟩ | ⟨-, rfl⟩ | ⟨_, _, -, rfl⟩ | ⟨_, -, rfl⟩ :=
    write_cases h
  case inl => simp [busy_of_busy hp.symm] at hb
  all_goals exact ⟨rfl, rfl⟩

theorem perform_keeps_error (x : Transaction) (s : State) :
    (perform x s).2.errInfo = s.errInfo ∧
      ((perform x s).2.phase = s.phase →
        (perform x s).2.err = s.err ∧ (perform x s).2.errCode = s.errCode) := by
  cases x with
  | read a => rw [perform, hostRead_frame]; exact ⟨rfl, fun _ => ⟨rfl, rfl⟩⟩
  | write a v =>
    rw [perform]
    obtain h | ⟨_, _, -, hb, hw, h⟩ := hostWrite_cases a v s <;> rw [h]
    · exact ⟨rfl, fun _ => ⟨rfl, rfl⟩⟩
    · exact write_keeps_error hb hw

/-- Settles O46: a host step is nothing, a move of the host alone, or a transaction. -/
theorem errorStaysUntilNextCommand : Obligations.ErrorStaysUntilNextCommand := by
  unfold Obligations.ErrorStaysUntilNextCommand
  intro s
  obtain h | ⟨h', h⟩ | ⟨x, h', -, h⟩ := hostStep_cases s <;> rw [h]
  · exact ⟨rfl, fun _ => ⟨rfl, rfl⟩⟩
  · exact ⟨rfl, fun _ => ⟨rfl, rfl⟩⟩
  · exact perform_keeps_error x s

/-! ### The interrupt, and an idle block -/

/-- Settles O45: DONE falls at a STATUS write with bit 1, at an issue and at a reset, and IRQ_EN takes
bit 0 of a CTRL write. -/
theorem interruptClears : Obligations.InterruptClears := by
  unfold Obligations.InterruptClears
  intro s v hs
  obtain ⟨hstatus, hctrl, -, -⟩ := registerWrites s v hs
  obtain ⟨-, -, hissue⟩ := cmdWriteIssues s v hs
  refine ⟨fun hv => ?_, hissue, fun hv => ?_, fun level => rfl, by rw [hostRead_state_idle hs]⟩
  · rw [hstatus, hv]
    rfl
  · rw [hctrl, hv]
    exact Bool.and_false _

/-- R203: with no command in flight the BLOCK has no step, whatever the level of `rst`. -/
theorem blockStep_idle {s : State} (h : s.phase = .idle) : blockStep s = .next s := by
  simp [blockStep, h]

/-- Settles O51: the turn taken from the schedule is an idle block's. -/
theorem idleBlockDoesNothing : Obligations.IdleBlockDoesNothing := by
  unfold Obligations.IdleBlockDoesNothing
  intro s ts hp hs ht
  rw [step_eq s hp, nextTurn_of_turns ht]
  exact blockStep_idle (s := { s with turns := ts }) hs

end Sys2Proof.Machine
end
